-- ==== Sys2Proof/Word.lean ====
section
/-! DEFINITION. The two data types of the block: the byte and the 16-bit word (00 R8: "A **byte** is 8 bits";
all values are unsigned, bit 0 least significant). -/

namespace Sys2Proof

/-- One byte: a buffer cell, an address, a length field, a table index (00 R8, R9). -/
abbrev Byte := BitVec 8

/-- A 16-bit value: the CRC accumulator, a checksum, a table entry (00 R7 `CRC_WIDTH`, R9). -/
abbrev Word := BitVec 16

end Sys2Proof
end

