-- ==== Sys2Proof/Config.lean ====
section
/-! DEFINITION. The parameters of 00 R7 and the free values. "Fixed" and "decided" parameters are constants with a value.
The configurable ones (`ADDR_OK`, `RESET_ACK_JUDGE`) are the record `Params`, which State holds and no operation writes (10 R26).
What the spec leaves without a value is an opaque constant, of which nothing can be proved. -/

namespace Sys2Proof

/-- The outcome class of an operation (60 R180). -/
inductive Status where
  | ok               -- success
  | truncatedFrame   -- fewer bytes arrived than the command's fixed expected length
  | checksumMismatch -- full-length frame received but checksum invalid
  | invalidInput     -- malformed address or pre-condition violation
deriving DecidableEq, Repr, Inhabited

/-- Which function `RESET_ACK_JUDGE` is (42 R140): the open parameter itself, or one of the two instances the spec names. -/
inductive JudgeRule where
  | openParameter -- the total function the spec leaves OPEN (00 R7, 92 D10): `Config.openJudge`
  | asSource      -- the instance `AS_SOURCE`
  | strict        -- the instance `STRICT`
deriving DecidableEq, Repr

/-- The two configurable parameters of 00 R7, fixed while the block is used (10 R26).
`refusedAddrs` is `ADDR_OK` as data: the addresses of which it is false (41 R123). -/
structure Params where
  refusedAddrs  : List Byte
  resetAckJudge : JudgeRule
deriving DecidableEq, Repr

namespace Config

/-- `CRC_INIT`: the value the accumulator takes at the start of every computation (00 R7, 40 R91). -/
abbrev crcInit : Word := 0xFFFF
/-- `CRC_POLY_REFLECTED` (00 R7). -/
abbrev crcPoly : Word := 0xA001
/-- `READ_CMD_LEN` (00 R7). -/
abbrev readCmdLen : Nat := 8
/-- `RESET_CMD_LEN` (00 R7). -/
abbrev resetCmdLen : Nat := 4
/-- `READ_RSP_LEN` (00 R7). -/
abbrev readRspLen : Nat := 25
/-- `RESET_ACK_LEN` (00 R7). -/
abbrev resetAckLen : Nat := 5
/-- `FC_READ`, function code "read input registers" (00 R7). -/
abbrev fcRead : Byte := 0x04
/-- `FC_RESET`, function code "reset energy counter" (00 R7). -/
abbrev fcReset : Byte := 0x42
/-- `REG_START`, the register start address in the read frame (00 R7). -/
abbrev regStart : Word := 0x0000
/-- `REG_COUNT`, the register count in the read frame (00 R7). -/
abbrev regCount : Word := 0x000A
/-- `FB_CAP`, the largest buffer length an operation accepts (00 R7, 92 D5). -/
abbrev fbCap : Nat := 255

/-- The default parameters: `ADDR_OK` true of every address (00 R7, 92 D9) and `RESET_ACK_JUDGE` left open
(00 R7: OPEN). The spec does not choose between the judge's two instances, and neither does this default (log 7). -/
def defaultParams : Params := { refusedAddrs := [], resetAckJudge := .openParameter }

/-- The open parameter `RESET_ACK_JUDGE`: a total function from the received buffer to a status (00 R7, 42 R140). No body:
whatever is proved of it holds of every such function. -/
opaque openJudge : List Byte → Status

/-- `DEFAULT_ADDR` (00 R7, 92 D17): OPEN, never used by the block, only by the host around it (45 R169). -/
opaque defaultAddr : Byte

/-- What `CRC` holds after reset and between operations: any value (93 U7, 10 R31; log 3, log 4). -/
opaque freeCrc : Nat → Word
/-- What `IDX` holds after reset and between operations: any value of its range `0..FB_CAP` (93 U7; log 3, log 4). -/
opaque freeIdx : Nat → Fin (fbCap + 1)
/-- What `WLEN` holds after reset and between operations: any value of its range `0..FB_CAP` (93 U7; log 3, log 4). -/
opaque freeWlen : Nat → Fin (fbCap + 1)
/-- What the byte of `WB` at an offset holds after reset and between operations: any value (93 U7, 10 R31; log 3, log 4, log 5). -/
opaque freeWb : Nat → Nat → Byte

end Config

end Sys2Proof
end

