-- ==== Sys2Proof/Syntax.lean ====
section
/-! DEFINITION. The instructions: one constructor per row of spec/opcode_table.json. The seven request rows are the block's
operations, each carrying only the fields its operation uses (30 R60 allows it); the four frame-format rows carry the frame's
variable fields (30 R66 to R69). -/

namespace Sys2Proof

/-- One row of the opcode table each. A frame row's meaning is the operation its row's rule names (30 R72: "each naming the rule
that gives its meaning"; log 1). -/
inductive Instr where
  /-- `COMPUTE`, op 0 (40 R95). -/
  | compute (data : List Byte)
  /-- `APPEND`, op 1 (40 R98, R99). -/
  | append (data : List Byte)
  /-- `VERIFY`, op 2 (40 R101, R102). -/
  | verify (data : List Byte)
  /-- `ENC_READ`, op 3 (41 R121). -/
  | encRead (addr : Byte)
  /-- `ENC_RESET`, op 4 (41 R125). -/
  | encReset (addr : Byte)
  /-- `VALIDATE` with `kind = READ_RSP`, op 5, kind 0 (42 R136, R137). -/
  | validateReadRsp (data : List Byte)
  /-- `VALIDATE` with `kind = RESET_ACK`, op 5, kind 1 (42 R136, R140). -/
  | validateResetAck (data : List Byte)
  /-- Format `CMD8`, the read-measurement command frame (30 R66; meaning 41 R121). -/
  | readCommandFrame (addr crcLo crcHi : Byte)
  /-- Format `CMD4`, the reset-energy command frame (30 R67; meaning 41 R125). -/
  | resetCommandFrame (addr crcLo crcHi : Byte)
  /-- Format `RSP25`, the read-measurement response frame: echoed address, echoed function code, payload byte count,
  ten registers, checksum bytes (30 R68; meaning 42 R136). -/
  | readResponseFrame (addr fc count : Byte) (regs : List Word) (crcLo crcHi : Byte)
  /-- Format `RSP5`, the reset acknowledgment frame: three bytes whose content the spec does not give, checksum bytes
  (30 R69; meaning 42 R136, R140). -/
  | resetAckFrame (b0 b1 b2 crcLo crcHi : Byte)
deriving DecidableEq, Repr

end Sys2Proof
end

