-- ==== Sys2Proof/Decode.lean ====
section
/-! DEFINITION. From presented bytes to an instruction, and back. Request layout: 30 R60 to R62; malformed requests: 30 R78;
frame formats: 30 R66 to R69. Decoding is total and rejects by name what is neither a request nor a frame. -/

namespace Sys2Proof

/-- `lo(v) = v[7:0]` (00 R8). -/
def lo (v : Word) : Byte := v.extractLsb' 0 8
/-- `hi(v) = v[15:8]` (00 R8). -/
def hi (v : Word) : Byte := v.extractLsb' 8 8
/-- The word with high byte `h` and low byte `l`: `(zext_16(h) << 8) | zext_16(l)` (20 R42). -/
def joinBytes (h l : Byte) : Word := (h.setWidth 16 <<< 8) ||| l.setWidth 16

/-- 16-bit fields laid down big-endian, high byte first (20 R42 (b)). -/
def wordsToBytes : List Word → List Byte
  | [] => []
  | w :: ws => hi w :: lo w :: wordsToBytes ws

/-- Big-endian byte pairs read as 16-bit fields (20 R42 (b)). -/
def bytesToWords : List Byte → List Word
  | h :: l :: bs => joinBytes h l :: bytesToWords bs
  | _ => []

/-- How presented bytes are to be read: the opcode table's column "format". A host presents only `req` (30 R60); the other four
stand for the table's frame-format rows (log 1). -/
inductive Format where
  | req | cmd8 | cmd4 | rsp25 | rsp5
deriving DecidableEq, Repr

/-- What is presented to the block: packed bytes and the format they are in (30 R60, R66 to R69). -/
structure Presented where
  format : Format
  bytes  : List Byte
deriving DecidableEq, Repr

/-- Why bytes are no request record and no frame of their format. -/
inductive Reject where
  | shortHeader  -- fewer than the three header bytes of a request (30 R60)
  | missingData  -- fewer data bytes than the request's `len` says (30 R60)
  | excessData   -- more data bytes than the request's `len` says (30 R60)
  | frameLength  -- not the format's fixed length (30 R79)
  | frameFields  -- a fixed byte of a command frame is another value (30 R66, R67, R77)
deriving DecidableEq, Repr

/-- What presented bytes say: an instruction, a malformed request (30 R78), or nothing the block can be presented with. -/
inductive Decoded where
  | instr (i : Instr)
  | malformed
  | rejected (why : Reject)
deriving DecidableEq, Repr

/-- Header byte 0: `op` in bits 2..0, `kind` in bit 3, `rsv` in bits 7..4 (30 R60). -/
def headerByte (op : BitVec 3) (kind : BitVec 1) (rsv : BitVec 4) : Byte := rsv ++ kind ++ op
/-- `op = h[2:0]` (30 R60). -/
def opField (b : Byte) : BitVec 3 := b.extractLsb' 0 3
/-- `kind = h[3]` (30 R60). -/
def kindField (b : Byte) : BitVec 1 := b.extractLsb' 3 1
/-- `rsv = h[7:4]` (30 R60). -/
def rsvField (b : Byte) : BitVec 4 := b.extractLsb' 4 4

/-- A packed request: a 3-byte header followed by the data bytes (30 R60). -/
def packRequest (op : BitVec 3) (kind : BitVec 1) (rsv : BitVec 4) (addr len : Byte) (data : List Byte) : List Byte :=
  headerByte op kind rsv :: addr :: len :: data

/-- A request whose operation uses the buffer: its data are the `len` bytes after the header, no fewer and no more (30 R60). -/
def decodeBuffer (mk : List Byte → Instr) (len : Byte) (data : List Byte) : Decoded :=
  if data.length = len.toNat then .instr (mk data)
  else if data.length < len.toNat then .rejected .missingData
  else .rejected .excessData

/-- The operation codes of 30 R61; `kind` splits `VALIDATE` (30 R62); a code of 6 or 7 selects no operation (30 R78).
Fields an operation does not use are ignored (30 R60). -/
def decodeOp (op : BitVec 3) (kind : BitVec 1) (addr len : Byte) (data : List Byte) : Decoded :=
  match op.toNat with
  | 0 => decodeBuffer .compute len data
  | 1 => decodeBuffer .append len data
  | 2 => decodeBuffer .verify len data
  | 3 => .instr (.encRead addr)
  | 4 => .instr (.encReset addr)
  | 5 => if kind = 0 then decodeBuffer .validateReadRsp len data else decodeBuffer .validateResetAck len data
  | _ => .malformed

/-- Reads a packed request. A non-zero `rsv` or a reserved `op` makes it malformed, and then nothing else is examined
(30 R78, 60 R183 (1)). -/
def decodeRequest : List Byte → Decoded
  | b :: addr :: len :: data =>
    if rsvField b = 0 then decodeOp (opField b) (kindField b) addr len data else .malformed
  | _ => .rejected .shortHeader

/-- Reads a `CMD8` frame (30 R66). Its checksum bytes are carried, not judged. -/
def decodeCmd8 : List Byte → Decoded
  | [a, fc, s1, s0, c1, c0, l, h] =>
    if fc = Config.fcRead ∧ joinBytes s1 s0 = Config.regStart ∧ joinBytes c1 c0 = Config.regCount then
      .instr (.readCommandFrame a l h)
    else .rejected .frameFields
  | _ => .rejected .frameLength

/-- Reads a `CMD4` frame (30 R67). Its checksum bytes are carried, not judged. -/
def decodeCmd4 : List Byte → Decoded
  | [a, fc, l, h] => if fc = Config.fcReset then .instr (.resetCommandFrame a l h) else .rejected .frameFields
  | _ => .rejected .frameLength

/-- Reads an `RSP25` frame (30 R68): no field of it is fixed. -/
def decodeRsp25 : List Byte → Decoded
  | e :: f :: n :: rest =>
    if rest.length = 22 then
      .instr (.readResponseFrame e f n (bytesToWords (rest.take 20)) (rest.getD 20 0) (rest.getD 21 0))
    else .rejected .frameLength
  | _ => .rejected .frameLength

/-- Reads an `RSP5` frame (30 R69): no field of it is fixed. -/
def decodeRsp5 : List Byte → Decoded
  | [x0, x1, x2, l, h] => .instr (.resetAckFrame x0 x1 x2 l h)
  | _ => .rejected .frameLength

/-- Presented bytes, read in their format. -/
def decode (f : Format) (bytes : List Byte) : Decoded :=
  match f with
  | .req => decodeRequest bytes
  | .cmd8 => decodeCmd8 bytes
  | .cmd4 => decodeCmd4 bytes
  | .rsp25 => decodeRsp25 bytes
  | .rsp5 => decodeRsp5 bytes

/-- The bytes of a `CMD8` frame (30 R66): address, function code, start and count big-endian, checksum low byte first. -/
def cmd8Bytes (addr crcLo crcHi : Byte) : List Byte :=
  addr :: Config.fcRead :: (wordsToBytes [Config.regStart, Config.regCount] ++ [crcLo, crcHi])

/-- The bytes of a `CMD4` frame (30 R67): four bytes, no register fields. -/
def cmd4Bytes (addr crcLo crcHi : Byte) : List Byte := [addr, Config.fcReset, crcLo, crcHi]

/-- The bytes of an `RSP25` frame (30 R68): register k at offsets 3+2k and 4+2k, high byte first. -/
def rsp25Bytes (addr fc count : Byte) (regs : List Word) (crcLo crcHi : Byte) : List Byte :=
  addr :: fc :: count :: (wordsToBytes regs ++ [crcLo, crcHi])

/-- The bytes of an `RSP5` frame (30 R69). -/
def rsp5Bytes (b0 b1 b2 crcLo crcHi : Byte) : List Byte := [b0, b1, b2, crcLo, crcHi]

/-- A request that carries a buffer, its unused fields zero (30 R60). -/
def packBuffer (op : BitVec 3) (kind : BitVec 1) (data : List Byte) : List Byte :=
  packRequest op kind 0 0 (BitVec.ofNat 8 data.length) data

/-- The format an instruction's words are in (the opcode table's column "format"). -/
def formatOf : Instr → Format
  | .compute _ => .req
  | .append _ => .req
  | .verify _ => .req
  | .encRead _ => .req
  | .encReset _ => .req
  | .validateReadRsp _ => .req
  | .validateResetAck _ => .req
  | .readCommandFrame _ _ _ => .cmd8
  | .resetCommandFrame _ _ _ => .cmd4
  | .readResponseFrame _ _ _ _ _ _ => .rsp25
  | .resetAckFrame _ _ _ _ _ => .rsp5

/-- The bytes of an instruction: a packed request with its unused fields zero (30 R60, R61, R62), or the frame (30 R66 to R69). -/
def encode : Instr → List Byte
  | .compute data => packBuffer 0 0 data
  | .append data => packBuffer 1 0 data
  | .verify data => packBuffer 2 0 data
  | .encRead addr => packRequest 3 0 0 addr 0 []
  | .encReset addr => packRequest 4 0 0 addr 0 []
  | .validateReadRsp data => packBuffer 5 0 data
  | .validateResetAck data => packBuffer 5 1 data
  | .readCommandFrame a l h => cmd8Bytes a l h
  | .resetCommandFrame a l h => cmd4Bytes a l h
  | .readResponseFrame e f n regs l h => rsp25Bytes e f n regs l h
  | .resetAckFrame x0 x1 x2 l h => rsp5Bytes x0 x1 x2 l h

/-- The lowest `n` bytes of a number, least significant first. -/
def bytesLowFirst : Nat → Nat → List Byte
  | 0, _ => []
  | n + 1, w => BitVec.ofNat 8 w :: bytesLowFirst n (w / 256)

/-- What an opcode-table row's bits `w`, `nbits` wide, stand for. A frame row is read as the table numbers it, one number whose
first byte is the most significant (98: "read as one number"; the rows' "bit_order"; log 2). Every other width is a request:
header byte 0 least significant (30 R60), `len` data bytes after the header, bits above `nbits` zero. -/
def tablePresented (nbits w : Nat) : Presented :=
  let v := w % 2 ^ nbits
  match nbits with
  | 32 => { format := .cmd4, bytes := (bytesLowFirst 4 v).reverse }
  | 40 => { format := .rsp5, bytes := (bytesLowFirst 5 v).reverse }
  | 64 => { format := .cmd8, bytes := (bytesLowFirst 8 v).reverse }
  | 200 => { format := .rsp25, bytes := (bytesLowFirst 25 v).reverse }
  | _ => { format := .req, bytes := bytesLowFirst (3 + v / 65536 % 256) v }

/-- The instruction the decoder reads from an opcode-table row's bits. -/
def decodeTableWord (nbits w : Nat) : Option Instr :=
  match decode (tablePresented nbits w).format (tablePresented nbits w).bytes with
  | .instr i => some i
  | .malformed => none
  | .rejected _ => none

end Sys2Proof
end

