-- ==== Sys2Proof/Machine/Crc.lean ====
section
/-! DEFINITION. The checksum function: the CRC table (20 R44), the update (40 R92), `crc16` (40 R94), the bit-serial form (40 R96),
and what it is for a frame to be checksummed (30 R65). -/

namespace Sys2Proof.Machine

/-- One bit-serial step with the reflected polynomial `0xA001` (20 R44). -/
def step1 (v : Word) : Word := if v.getLsbD 0 then (v >>> 1) ^^^ Config.crcPoly else v >>> 1

/-- `step1` applied 8 times (20 R44). -/
def step8 (v : Word) : Word := step1 (step1 (step1 (step1 (step1 (step1 (step1 (step1 v)))))))

/-- `TabRead(i)`: entry `i` of the CRC table, by the table's construction (20 R44). -/
def tabRead (i : Byte) : Word := step8 (i.setWidth 16)

/-- The 8-bit table index of an update: `(c ^ zext_16(b))[7:0]` (40 R92). -/
def tableIndex (c : Word) (b : Byte) : Byte := lo (c ^^^ b.setWidth 16)

/-- The update function, in the table form the spec takes as the definition (40 R92, 92 D14). -/
def crcStep (c : Word) (b : Byte) : Word := (c >>> 8) ^^^ tabRead (tableIndex c b)

/-- The update in the bit-serial form (40 R96). -/
def crcStepSerial (c : Word) (b : Byte) : Word := step8 (c ^^^ b.setWidth 16)

/-- `crc16(s)`: the left fold of the update over `s` from `0xFFFF` (40 R94). -/
def crc16 (s : List Byte) : Word := s.foldl crcStep Config.crcInit

/-- The payload of a checksummed buffer: all bytes but the last two (00, Glossary). -/
def payload (f : List Byte) : List Byte := f.take (f.length - 2)

/-- The two checksum bytes of a payload, low byte first (20 R42 (a)). -/
def checksumBytes (s : List Byte) : List Byte := [lo (crc16 s), hi (crc16 s)]

/-- A frame is checksummed when it is longer than 2 and its last two bytes are the checksum of its payload, low byte first
(30 R65). -/
def checksummed (f : List Byte) : Bool :=
  decide (2 < f.length) && decide (f.drop (f.length - 2) = checksumBytes (payload f))

/-- What `APPEND` makes of a buffer longer than 2: its payload and then the payload's checksum (40 R98). -/
def withChecksum (f : List Byte) : List Byte := payload f ++ checksumBytes (payload f)

end Sys2Proof.Machine
end

