-- ==== Sys2Proof/Machine/State.lean ====
section
/-! DEFINITION. The block's state as plain data, and what it is after reset. 10 R20 to R31; 30 R63; 70 R200. -/

namespace Sys2Proof.Machine

/-- The record the block answers with when an operation ends (30 R63). -/
structure Response where
  status : Status
  valid  : Bool
  crc    : Word
  len    : Byte
  data   : List Byte
deriving DecidableEq, Repr

/-- The working buffer `WB`: its bytes by offset (20 R40), offsets strictly rising. Every cell of `WB` is listed (log 5). -/
abbrev Memory := List Host.Cell

/-- What an unlisted offset reads as: there is no such cell (20 R40, R41; log 5). -/
def Memory.unlisted : Option Byte := none

/-- The cells at the `n` offsets from `a`, each holding what `f` gives for its offset. -/
def Memory.filled (f : Nat → Byte) (a : Nat) : Nat → Memory
  | 0 => []
  | n + 1 => (a, f a) :: Memory.filled f (a + 1) n

/-- The offsets listed, in order. -/
def Memory.offsets (m : Memory) : List Nat := m.map Prod.fst

/-- Offsets strictly rise from `low` on. -/
def Memory.wfFrom : Nat → Memory → Bool
  | _, [] => true
  | low, (a, _) :: rest => decide (low ≤ a) && Memory.wfFrom (a + 1) rest

/-- The canonical form: offsets strictly rising. (No entry can equal what an unlisted offset reads as, which is no value.) -/
def Memory.wf (m : Memory) : Bool := Memory.wfFrom 0 m

/-- The block's state. `crc`, `idx`, `wlen`, `wb` are the working registers (10 R20 to R24). -/
structure State where
  /-- The configurable parameters (00 R7, 10 R26). -/
  params   : Params
  /-- The request presented and not yet taken (30 R60, 70 R200). -/
  pending  : Option Presented
  /-- The response of the latest operation (30 R63, 70 R200). -/
  response : Option Response
  /-- `CRC` (10 R21). -/
  crc      : Word
  /-- `IDX` (10 R22). -/
  idx      : Nat
  /-- `WLEN` (10 R24). -/
  wlen     : Nat
  /-- `WB` (10 R24, 20 R40). -/
  wb       : Memory
  /-- The model's own: how many times free values have been drawn for the working registers (log 3, log 4). -/
  draws    : Nat
deriving DecidableEq, Repr

/-- Why a meaning stops. No request reaches any of these. -/
inductive Fault where
  /-- An access at an offset not below `WLEN`, which 20 R41 forbids, or a read at one `WB` has no cell for. Raised by `memRead`,
  `memWrite`. Safe. -/
  | offsetOutOfRange
  /-- A buffer longer than `FB_CAP`, which no request expresses (20 R40, 93 U17). Raised by `sampleBuffer`. Safe. -/
  | overCapacity
deriving DecidableEq, Repr

/-- Why a step has no meaning. -/
inductive Refusal where
  /-- An instruction without a meaning; no arm of `exec` answers it. Safe. -/
  | notModelled (mnemonic : String)
  /-- The presented bytes are no request record and no frame of their format (30 R60, R66 to R69). Raised by `step`. Safe. -/
  | notARequest (why : Reject)
deriving DecidableEq, Repr

/-- The idle block: no request pending, no response pending, the working registers, every byte of `WB` among them, holding draw `k` of
the free values (70 R200, 10 R31, 93 U7). -/
def State.idle (p : Params) (k : Nat) : State :=
  { params := p, pending := none, response := none, crc := Config.freeCrc k, idx := (Config.freeIdx k).val,
    wlen := (Config.freeWlen k).val, wb := Memory.filled (Config.freeWb k) 0 Config.fbCap, draws := k + 1 }

/-- The machine right after reset, with the default parameters (70 R200, 10 R31, 00 R7). -/
def State.reset : State := State.idle Config.defaultParams 0

end Sys2Proof.Machine
end

