-- ==== Sys2Proof/Machine/Flags.lean ====
section
/-! DEFINITION. The outputs that look like flags (10 R25): `status` and `valid`, carried in the response and kept nowhere; the
responses the operations build (30 R63: "A field the operation does not write is zero"); the packed response. -/

namespace Sys2Proof.Machine

/-- The numeric status codes (60 R180). -/
def statusCode : Status → BitVec 2
  | .ok => 0
  | .truncatedFrame => 1
  | .checksumMismatch => 2
  | .invalidInput => 3

/-- `VALIDATE`'s flag: `valid = (s == OK)` (42 R136). -/
def accepts (st : Status) : Bool := decide (st = .ok)

/-- A response with only a status and a buffer (30 R63): what the encoders, `APPEND` and a failure answer. -/
def bufferResponse (st : Status) (data : List Byte) : Response :=
  { status := st, valid := false, crc := 0, len := BitVec.ofNat 8 data.length, data := data }

/-- `COMPUTE`'s response: `status = OK` and the checksum (40 R95). -/
def crcResponse (c : Word) : Response := { status := .ok, valid := false, crc := c, len := 0, data := [] }

/-- A response with only `status` and `valid` (30 R63): what `VERIFY` and `VALIDATE` answer. -/
def verdictResponse (st : Status) (valid : Bool) : Response :=
  { status := st, valid := valid, crc := 0, len := 0, data := [] }

/-- Header byte 0 of a packed response: `status` in bits 1..0, `valid` in bit 2, zeros above (30 R63). -/
def responseHeaderByte (st : Status) (valid : Bool) : Byte := (0 : BitVec 5) ++ BitVec.ofBool valid ++ statusCode st

/-- The packed response: a 4-byte header followed by the data bytes (30 R63). -/
def packResponse (r : Response) : List Byte :=
  responseHeaderByte r.status r.valid :: lo r.crc :: hi r.crc :: r.len :: r.data

end Sys2Proof.Machine
end

