-- ==== Sys2Proof/Machine/Ops.lean ====
section
/-! DEFINITION. The named operations over the working registers and the buffer space, and how an operation ends. 20 R40, R41;
40 R91, R93, R106; 60 R184; 00 R10. -/

namespace Sys2Proof.Machine

/-- The byte listed at an offset. -/
def Memory.read (m : Memory) (a : Nat) : Option Byte :=
  match m with
  | [] => Memory.unlisted
  | (k, v) :: rest => if k = a then some v else Memory.read rest a

/-- Lists byte `v` at offset `a`, in the canonical form. -/
def Memory.write (m : Memory) (a : Nat) (v : Byte) : Memory :=
  match m with
  | [] => [(a, v)]
  | (k, w) :: rest =>
    if a < k then (a, v) :: (k, w) :: rest
    else if a = k then (a, v) :: rest
    else (k, w) :: Memory.write rest a v

/-- Lists the bytes of a sequence at consecutive offsets from `a`. -/
def Memory.writeAll (m : Memory) (a : Nat) : List Byte → Memory
  | [] => m
  | v :: vs => Memory.writeAll (Memory.write m a v) (a + 1) vs

/-- `CRC <- v`. -/
def State.setCrc (s : State) (v : Word) : State := { s with crc := v }
/-- `IDX <- n`. -/
def State.setIdx (s : State) (n : Nat) : State := { s with idx := n }
/-- `WLEN <- n`. -/
def State.setWlen (s : State) (n : Nat) : State := { s with wlen := n }
/-- `WB` becomes `m`. -/
def State.setWb (s : State) (m : Memory) : State := { s with wb := m }

/-- The operation ends with this response. Nothing else is saved, and the block is idle (60 R184, R185). -/
def State.answer (s : State) (r : Response) : State := { s with response := some r }

/-- `raise <Status>(info)`: the operation ends at once with the failure's status and the buffer its rule names, every other response
field zero; there is no trap, no handler and no saved state (00 R10, 60 R184). Nothing returns from it (60 R185). -/
def raise (st : Status) (info : List Byte) (s : State) : Except Fault State := .ok (s.answer (bufferResponse st info))

/-- `return (fields)`: the operation ends with the named response (00 R10). -/
def finish (r : Response) (s : State) : Except Fault State := .ok (s.answer r)

/-- An operation's outcome as the host reads it. -/
def outcome (r : Except Fault State) : Host.Outcome State Fault Refusal :=
  match r with
  | .ok s => .next s
  | .error f => .fault f

/-- `MemRead(a, 1)`: requires `a < WLEN` (20 R41). Every offset below `FB_CAP` is a cell of `WB` and holds a byte (20 R40), so the
inner fault is for a state whose `WLEN` exceeds its buffer, which the invariant excludes. -/
def memRead (a : Nat) (s : State) : Except Fault Byte :=
  if a < s.wlen then
    match s.wb.read a with
    | some v => .ok v
    | none => .error .offsetOutOfRange
  else .error .offsetOutOfRange

/-- `MemWrite(a, 1, v)`: requires `a < WLEN` (20 R41). -/
def memWrite (a : Nat) (v : Byte) (s : State) : Except Fault State :=
  if a < s.wlen then .ok (s.setWb (s.wb.write a v)) else .error .offsetOutOfRange

/-- `MemWrite` at consecutive offsets from `a`. -/
def writeBytes (a : Nat) (vs : List Byte) (s : State) : Except Fault State :=
  match vs with
  | [] => .ok s
  | v :: rest => do
    let s ← memWrite a v s
    writeBytes (a + 1) rest s

/-- `MemRead` of `n` consecutive offsets from `a`. -/
def readBytes (n a : Nat) (s : State) : Except Fault (List Byte) :=
  match n with
  | 0 => .ok []
  | n + 1 => do
    let v ← memRead a s
    let rest ← readBytes n (a + 1) s
    .ok (v :: rest)

/-- Start of a computation: `CRC <- 0xFFFF; IDX <- 0` (40 R91). -/
def startCrc (s : State) : State := (s.setCrc Config.crcInit).setIdx 0

/-- The per-byte step: `CRC <- crc_step(CRC, MemRead(IDX, 1)); IDX <- IDX + 1` (40 R93). -/
def byteStep (s : State) : Except Fault State := do
  let b ← memRead s.idx s
  .ok ((s.setCrc (crcStep s.crc b)).setIdx (s.idx + 1))

/-- `n` per-byte steps: the loop `while IDX < n` of 40 R95, R98, R101 when `IDX` starts at 0, since each step adds 1. -/
def processBytes (n : Nat) (s : State) : Except Fault State :=
  match n with
  | 0 => .ok s
  | n + 1 => do
    let s ← byteStep s
    processBytes n s

/-- The checksum of the first `n` bytes of `WB` into `CRC` (40 R91, R93). -/
def checksumFirst (n : Nat) (s : State) : Except Fault State := processBytes n (startCrc s)

/-- `APPEND` on the working buffer, for `WLEN > 2`: the checksum of all but the last two bytes, low byte at `WLEN-2`, then high byte at
`WLEN-1` (40 R98, R106). -/
def appendChecksum (s : State) : Except Fault State := do
  let s ← checksumFirst (s.wlen - 2) s
  let s ← memWrite (s.wlen - 2) (lo s.crc) s
  memWrite (s.wlen - 1) (hi s.crc) s

/-- `VERIFY` on the working buffer: false for a length of at most 2, otherwise whether the recomputed checksum equals the embedded one,
low byte first (40 R101, R102). -/
def verifyChecksum (s : State) : Except Fault (Bool × State) :=
  if s.wlen ≤ 2 then .ok (false, s)
  else do
    let s ← checksumFirst (s.wlen - 2) s
    let h ← memRead (s.wlen - 1) s
    let l ← memRead (s.wlen - 2) s
    .ok (decide (s.crc = joinBytes h l), s)

/-- The block takes the pending request: it is then idle with nothing of an earlier operation in it, the working registers holding
values nothing is known of (10 R20, 93 U7; 60 R185: "exactly as if the previous one had never happened"; log 4, log 12). -/
def State.accept (s : State) : State := State.idle s.params s.draws

/-- The answer to a malformed request: `INVALID_INPUT`, every other field zero, and nothing else is done (30 R78). -/
def answerMalformed (s : State) : State := s.answer (bufferResponse .invalidInput [])

/-- The host presents a request. There is no move while another is pending (70 R207, 93 U5). -/
def State.present (s : State) (p : Presented) : Option State :=
  match s.pending with
  | none => some { s with pending := some p }
  | some _ => none

/-- The host resets the block: a request in flight is abandoned without a response, the parameters keep their configured values
(70 R200, R201, 10 R31, 93 U9). -/
def State.hostReset (s : State) : State := State.idle s.params s.draws

end Sys2Proof.Machine
end

