-- ==== Sys2Proof/Machine/Operands.lean ====
section
/-! DEFINITION. The operand forms: a request's buffer (10 R24), the encoder's address (41 R123), the frames the encoder lays down
(41 R121, R125), and the buffer a response carries. -/

namespace Sys2Proof.Machine

/-- Operand sampling: `WLEN <- req.len; WB[0..WLEN-1] <- req.data` (10 R24, 70 R208). A buffer over `FB_CAP`, which no request
expresses, faults (log 14). -/
def sampleBuffer (data : List Byte) (s : State) : Except Fault State :=
  if data.length ≤ Config.fbCap then writeBytes 0 data (s.setWlen data.length) else .error .overCapacity

/-- The response's buffer: a copy of `WB[0..WLEN-1]` (10 R24). -/
def readBuffer (s : State) : Except Fault (List Byte) := readBytes s.wlen 0 s

/-- The operation ends with status `OK` and a copy of the working buffer (40 R98, 41 R121, R125). -/
def returnBuffer (s : State) : Except Fault State := do
  let data ← readBuffer s
  finish (bufferResponse .ok data) s

/-- `ADDR_OK(a)` (41 R123). -/
def addrOk (p : Params) (a : Byte) : Bool := !p.refusedAddrs.contains a

/-- The bytes `ENC_READ` lays down before `APPEND` (41 R121). -/
def readTemplate (addr : Byte) : List Byte :=
  addr :: Config.fcRead :: wordsToBytes [Config.regStart, Config.regCount]

/-- The bytes `ENC_RESET` lays down before `APPEND` (41 R125). -/
def resetTemplate (addr : Byte) : List Byte := [addr, Config.fcReset]

/-- An encoder operation: the address check, `WLEN <- n`, the bytes at offsets from 0, `APPEND`, and the frame (41 R121, R123, R125). -/
def encodeFrame (n : Nat) (addr : Byte) (bytes : List Byte) (s : State) : Except Fault State :=
  if addrOk s.params addr then do
    let s ← writeBytes 0 bytes (s.setWlen n)
    let s ← appendChecksum s
    returnBuffer s
  else raise .invalidInput [] s

end Sys2Proof.Machine
end

