-- ==== Sys2Proof/Machine/ChecksumEngine.lean ====
section
/-! DEFINITION. The Checksum Engine's operations: `COMPUTE`, `APPEND`, `VERIFY` (40). -/

namespace Sys2Proof.Machine

/-- The body of `COMPUTE` (40 R95): the checksum over all `len` bytes. -/
def computeOp (data : List Byte) (s : State) : Except Fault State := do
  let s ← sampleBuffer data s
  let s ← checksumFirst s.wlen s
  finish (crcResponse s.crc) s

/-- The body of `APPEND` (40 R98); a buffer of length at most 2 comes back unchanged with `INVALID_INPUT` (40 R99). -/
def appendOp (data : List Byte) (s : State) : Except Fault State := do
  let s ← sampleBuffer data s
  if s.wlen ≤ 2 then
    let unchanged ← readBuffer s
    raise .invalidInput unchanged s
  else
    let s ← appendChecksum s
    returnBuffer s

/-- The body of `VERIFY` (40 R101, R102): status `OK` whatever the answer. -/
def verifyOp (data : List Byte) (s : State) : Except Fault State := do
  let s ← sampleBuffer data s
  let (valid, s) ← verifyChecksum s
  finish (verdictResponse .ok valid) s

/-- `COMPUTE` (40 R95). -/
def execCompute (data : List Byte) (s : State) : Host.Outcome State Fault Refusal := outcome (computeOp data s)

/-- `APPEND` (40 R98, R99). -/
def execAppend (data : List Byte) (s : State) : Host.Outcome State Fault Refusal := outcome (appendOp data s)

/-- `VERIFY` (40 R101, R102). -/
def execVerify (data : List Byte) (s : State) : Host.Outcome State Fault Refusal := outcome (verifyOp data s)

end Sys2Proof.Machine
end

