-- ==== Sys2Proof/Machine/FrameEncoder.lean ====
section
/-! DEFINITION. The Frame Encoder's operations, `ENC_READ` and `ENC_RESET` (41), and the two command-frame rows of the opcode table,
whose meaning is the encoder rule each names (30 R66, R67, R72; log 1). -/

namespace Sys2Proof.Machine

/-- `ENC_READ` (41 R121). -/
def execEncRead (addr : Byte) (s : State) : Host.Outcome State Fault Refusal :=
  outcome (encodeFrame Config.readCmdLen addr (readTemplate addr) s)

/-- `ENC_RESET` (41 R125). -/
def execEncReset (addr : Byte) (s : State) : Host.Outcome State Fault Refusal :=
  outcome (encodeFrame Config.resetCmdLen addr (resetTemplate addr) s)

/-- The row `CMD8`: R121's frame is built for the frame's address. All eight bytes are laid down, and `APPEND` overwrites the last two,
whose old values "do not matter" (41 R121 corner cases). -/
def execReadCommandFrame (addr crcLo crcHi : Byte) (s : State) : Host.Outcome State Fault Refusal :=
  outcome (encodeFrame Config.readCmdLen addr (cmd8Bytes addr crcLo crcHi) s)

/-- The row `CMD4`: R125's frame is built for the frame's address, as for `CMD8`. -/
def execResetCommandFrame (addr crcLo crcHi : Byte) (s : State) : Host.Outcome State Fault Refusal :=
  outcome (encodeFrame Config.resetCmdLen addr (cmd4Bytes addr crcLo crcHi) s)

end Sys2Proof.Machine
end

