-- ==== Sys2Proof/Machine/FrameValidator.lean ====
section
/-! DEFINITION. The Frame Validator's operation `VALIDATE` (42), and the two response-frame rows of the opcode table, whose meaning is
its judgement of that frame (30 R68, R69, R72; log 1). -/

namespace Sys2Proof.Machine

/-- `judge_fixed(N, len, data)`: shortness first, then the checksum (42 R137). -/
def judgeFixed (n : Nat) (s : State) : Except Fault (Status × State) :=
  if s.wlen < n then .ok (.truncatedFrame, s)
  else do
    let (valid, s) ← verifyChecksum s
    .ok (if valid then .ok else .checksumMismatch, s)

/-- The instance `AS_SOURCE`, of the length alone (42 R140). -/
def judgeAsSource (len : Nat) : Status :=
  if len = 0 then .truncatedFrame
  else if len < Config.resetAckLen then .ok
  else .checksumMismatch

/-- `RESET_ACK_JUDGE(req.len, req.data)` (42 R140), by the configured instance. -/
def judgeResetAck (s : State) : Except Fault (Status × State) :=
  match s.params.resetAckJudge with
  | .openParameter => do
    let data ← readBuffer s
    .ok (Config.openJudge data, s)
  | .asSource => .ok (judgeAsSource s.wlen, s)
  | .strict => judgeFixed Config.resetAckLen s

/-- `VALIDATE` with expected length `n` and judgement `judge`: an over-long buffer is `INVALID_INPUT` before anything else is looked at
(42 R136, R138). Neither address, function code nor byte count is examined (42 R139). -/
def validateOp (n : Nat) (judge : State → Except Fault (Status × State)) (data : List Byte) (s : State) : Except Fault State := do
  let s ← sampleBuffer data s
  if n < s.wlen then raise .invalidInput [] s
  else
    let (st, s) ← judge s
    finish (verdictResponse st (accepts st)) s

/-- `VALIDATE READ_RSP` (42 R136, R137, R138). -/
def execValidateReadRsp (data : List Byte) (s : State) : Host.Outcome State Fault Refusal :=
  outcome (validateOp Config.readRspLen (judgeFixed Config.readRspLen) data s)

/-- `VALIDATE RESET_ACK` (42 R136, R138, R140). -/
def execValidateResetAck (data : List Byte) (s : State) : Host.Outcome State Fault Refusal :=
  outcome (validateOp Config.resetAckLen judgeResetAck data s)

/-- The row `RSP25`: the frame is judged as `VALIDATE READ_RSP` judges it (42 R136). -/
def execReadResponseFrame (addr fc count : Byte) (regs : List Word) (crcLo crcHi : Byte) (s : State) :
    Host.Outcome State Fault Refusal :=
  outcome (validateOp Config.readRspLen (judgeFixed Config.readRspLen) (rsp25Bytes addr fc count regs crcLo crcHi) s)

/-- The row `RSP5`: the frame is judged as `VALIDATE RESET_ACK` judges it (42 R136, R140). -/
def execResetAckFrame (b0 b1 b2 crcLo crcHi : Byte) (s : State) : Host.Outcome State Fault Refusal :=
  outcome (validateOp Config.resetAckLen judgeResetAck (rsp5Bytes b0 b1 b2 crcLo crcHi) s)

end Sys2Proof.Machine
end

