-- ==== Sys2Proof/Machine/Dispatch.lean ====
section
/-! DEFINITION. One arm per constructor of Instr: one row of spec/opcode_table.json each. -/

namespace Sys2Proof.Machine

def exec (i : Instr) (s : State) : Host.Outcome State Fault Refusal :=
  match i with
  | .compute data => Sys2Proof.Machine.execCompute data s
  | .append data => Sys2Proof.Machine.execAppend data s
  | .verify data => Sys2Proof.Machine.execVerify data s
  | .encRead addr => Sys2Proof.Machine.execEncRead addr s
  | .encReset addr => Sys2Proof.Machine.execEncReset addr s
  | .validateReadRsp data => Sys2Proof.Machine.execValidateReadRsp data s
  | .validateResetAck data => Sys2Proof.Machine.execValidateResetAck data s
  | .readCommandFrame addr crcLo crcHi => Sys2Proof.Machine.execReadCommandFrame addr crcLo crcHi s
  | .resetCommandFrame addr crcLo crcHi => Sys2Proof.Machine.execResetCommandFrame addr crcLo crcHi s
  | .readResponseFrame addr fc count regs crcLo crcHi => Sys2Proof.Machine.execReadResponseFrame addr fc count regs crcLo crcHi s
  | .resetAckFrame b0 b1 b2 crcLo crcHi => Sys2Proof.Machine.execResetAckFrame b0 b1 b2 crcLo crcHi s

end Sys2Proof.Machine
end

