-- ==== Sys2Proof/Machine/Step.lean ====
section
/-! DEFINITION. One step: the block takes the pending request and answers it; with none pending it waits (00 R12, 70 R200). -/

namespace Sys2Proof.Machine

/-- One operation, from request to response, is one step (00 R11). A malformed request selects no operation and is answered
`INVALID_INPUT` (30 R78). With no request the block stays idle (70 R200; log 18). -/
def step (s : State) : Host.Outcome State Fault Refusal :=
  match s.pending with
  | none => .next s
  | some p =>
    match decode p.format p.bytes with
    | .instr i => exec i s.accept
    | .malformed => .next (answerMalformed s.accept)
    | .rejected why => .refused (.notARequest why)

/-- The state in which the next step runs the opcode-table word: the word is presented as the pending request (log 19). -/
def State.withFetchWord (s : State) (nbits w : Nat) : State := { s with pending := some (tablePresented nbits w) }

end Sys2Proof.Machine
end

