-- ==== Sys2Proof/Machine/Driver.lean ====
section
/-! DEFINITION. The host around the block: asking for one operation after another (70 R206, R207), and the context rules of 45 as
functions over the block's operations: Transport Reader (R151), Register Decoder (R160 to R162), driver `request` and `reset`
(R165, R166). These are the block's environment (00 R6); `step` uses none of them (log 21). -/

namespace Sys2Proof.Machine

/-- An operation as the host presents it. -/
def requestFor (i : Instr) : Presented := { format := formatOf i, bytes := encode i }

/-- The host presents one request and waits for its response (70 R206, R207). No answer when a request is already pending or the bytes
are no request. -/
def ask (p : Presented) (s : State) : Option (Response × State) :=
  match s.present p with
  | none => none
  | some s1 =>
    match step s1 with
    | .next t => t.response.map (fun r => (r, t))
    | .fault _ => none
    | .refused _ => none

/-- Requests one after another, each waiting for the previous response: the responses, in order (20 R48, 70 R206). -/
def askAll (ps : List Presented) (s : State) : Option (List Response × State) :=
  match ps with
  | [] => some ([], s)
  | p :: rest =>
    match ask p s with
    | none => none
    | some (r, t) => (askAll rest t).map (fun x => (r :: x.1, x.2))

/-- The Transport Reader: reads up to `n` bytes; `attempts` lists what each read attempt yields. It stops at the first attempt that
yields nothing before the timeout (45 R151). -/
def readUpTo (n : Nat) (attempts : List (List Byte)) : List Byte :=
  match attempts with
  | [] => []
  | chunk :: rest =>
    if chunk.isEmpty then []
    else if n ≤ chunk.length then chunk.take n
    else chunk ++ readUpTo (n - chunk.length) rest

/-- The Measurement record (45 R162). The scaled fields are exact quotients: the spec gives no floating-point format and no rounding
(45 R161, 91 N17; log 21). -/
structure Measurement where
  voltage     : Rat
  current     : Rat
  activePower : Rat
  energy      : Rat
  frequency   : Rat
  powerFactor : Rat
  alarm       : Word
deriving DecidableEq, Repr

/-- The big-endian byte pair at offset `k` (45 R160). -/
def wordAt (b : List Byte) (k : Nat) : Word := joinBytes (b.getD k 0) (b.getD (k + 1) 0)

/-- The word-swapped 32-bit value at offset `k`: low word first, each word big-endian (45 R160, 20 R42 (c)). -/
def swappedAt (b : List Byte) (k : Nat) : BitVec 32 := wordAt b (k + 2) ++ wordAt b k

/-- What the Frame Validator accepts as a read-measurement response: 25 bytes, checksummed (42 R136, R137, R142 (a)). -/
def acceptedReadRsp (b : List Byte) : Bool := decide (b.length = Config.readRspLen) && checksummed b

/-- The Register Decoder's table (45 R160); defined on exactly the 25-byte buffers the Frame Validator accepts (45 R161). -/
def decodeMeasurement (b : List Byte) : Option Measurement :=
  if acceptedReadRsp b then
    some { voltage := (wordAt b 3).toNat / 10, current := (swappedAt b 5).toNat / 1000,
           activePower := (swappedAt b 9).toNat / 10, energy := (swappedAt b 13).toNat / 1000,
           frequency := (wordAt b 17).toNat / 10, powerFactor := (wordAt b 19).toNat / 100,
           alarm := wordAt b 21 }
  else none

/-- `request(address)`: encode, transmit, receive up to 25 bytes, validate, and on success decode (45 R165). `bus` says what the read
attempts yield after a transmitted frame. The default address is the host's (45 R169). -/
def driverRequest (addr : Option Byte) (bus : List Byte → List (List Byte)) (s : State) :
    Option (Except Status Measurement × State) :=
  match ask (requestFor (.encRead (addr.getD Config.defaultAddr))) s with
  | none => none
  | some (enc, s1) =>
    if enc.status = .ok then
      match ask (requestFor (.validateReadRsp (readUpTo Config.readRspLen (bus enc.data)))) s1 with
      | none => none
      | some (verdict, s2) =>
        if verdict.status = .ok then
          (decodeMeasurement (readUpTo Config.readRspLen (bus enc.data))).map (fun m => (.ok m, s2))
        else some (.error verdict.status, s2)
    else some (.error enc.status, s1)

/-- `reset(address)`: encode, transmit, receive up to 5 bytes, validate; no data payload (45 R166). -/
def driverReset (addr : Option Byte) (bus : List Byte → List (List Byte)) (s : State) : Option (Except Status Unit × State) :=
  match ask (requestFor (.encReset (addr.getD Config.defaultAddr))) s with
  | none => none
  | some (enc, s1) =>
    if enc.status = .ok then
      match ask (requestFor (.validateResetAck (readUpTo Config.resetAckLen (bus enc.data)))) s1 with
      | none => none
      | some (verdict, s2) => if verdict.status = .ok then some (.ok (), s2) else some (.error verdict.status, s2)
    else some (.error enc.status, s1)

end Sys2Proof.Machine
end

