-- ==== Sys2Proof/WellFormed.lean ====
section
/-! DEFINITION. Which instructions the encodings can express: a request's buffer has at most FB_CAP bytes (30 R60), a read
response frame has exactly ten registers (30 R68). -/

namespace Sys2Proof

/-- `len` is an 8-bit field, `0..255 = FB_CAP` (30 R60). -/
def bufferFits (data : List Byte) : Bool := decide (data.length ≤ Config.fbCap)

/-- An instruction some encoding of the spec expresses. -/
def Instr.wellFormed : Instr → Bool
  | .compute data => bufferFits data
  | .append data => bufferFits data
  | .verify data => bufferFits data
  | .encRead _ => true
  | .encReset _ => true
  | .validateReadRsp data => bufferFits data
  | .validateResetAck data => bufferFits data
  | .readCommandFrame _ _ _ => true
  | .resetCommandFrame _ _ _ => true
  | .readResponseFrame _ _ _ regs _ _ => decide (regs.length = 10)
  | .resetAckFrame _ _ _ _ _ => true

end Sys2Proof
end

