-- ==== Sys2Proof/Safety.lean ====
section
/-! DEFINITION. The terms claims use: what a step answers, and the invariant of the block's state. -/

namespace Sys2Proof.Machine

/-- The response a next state carries; none for a fault or a refusal. -/
def answerOf (o : Host.Outcome State Fault Refusal) : Option Response :=
  match o with
  | .next t => t.response
  | .fault _ => none
  | .refused _ => none

/-- What every state of the block satisfies: the working buffer is canonical and has exactly its `FB_CAP` cells, each holding a byte
(20 R40; log 5), `IDX` and `WLEN` are within their ranges (10, section 2), a response's `len` counts its data (30 R63), `valid = 1` only with status `OK` (40 R101, 42 R136). -/
structure State.Inv (s : State) : Prop where
  wbCanonical   : s.wb.wf = true
  wbWhole       : s.wb.offsets = List.range Config.fbCap
  idxInRange    : s.idx ≤ Config.fbCap
  wlenInRange   : s.wlen ≤ Config.fbCap
  responseLen   : ∀ r, s.response = some r → r.data.length = r.len.toNat
  validMeansOk  : ∀ r, s.response = some r → r.valid = true → r.status = .ok

/-- What no operation writes is the same in `t` as in `s`: the parameters (10 R26), the request slot, the free-value counter. -/
def SameShell (s t : State) : Prop := t.params = s.params ∧ t.pending = s.pending ∧ t.draws = s.draws

/-- The working buffer of `t` reads as `f` at the offsets below `f.length`, and as the buffer of `s` at every other offset. -/
def BufferBecomes (s t : State) (f : List Byte) : Prop :=
  (∀ a, a < f.length → t.wb.read a = f[a]?) ∧ (∀ a, f.length ≤ a → t.wb.read a = s.wb.read a)

/-- The pending request has these fields, `rsv` zero and `len` the number of its data bytes (30 R60). -/
def Asks (s : State) (op : BitVec 3) (kind : BitVec 1) (addr : Byte) (data : List Byte) : Prop :=
  s.pending = some { format := .req, bytes := packRequest op kind 0 addr (BitVec.ofNat 8 data.length) data }

/-- The buffer `f` with bit `j` of byte `k` flipped (40 R104). -/
def flipBit (f : List Byte) (k j : Nat) : List Byte := f.modify k (fun b => b ^^^ ((1 : Byte) <<< j))

/-- How many bytes of the working buffer an instruction fills. -/
def bufferLength : Instr → Nat
  | .compute data => data.length
  | .append data => data.length
  | .verify data => data.length
  | .encRead _ => Config.readCmdLen
  | .encReset _ => Config.resetCmdLen
  | .validateReadRsp data => data.length
  | .validateResetAck data => data.length
  | .readCommandFrame _ _ _ => Config.readCmdLen
  | .resetCommandFrame _ _ _ => Config.resetCmdLen
  | .readResponseFrame addr fc count regs crcLo crcHi => (rsp25Bytes addr fc count regs crcLo crcHi).length
  | .resetAckFrame _ _ _ _ _ => Config.resetAckLen

end Sys2Proof.Machine
end

