-- ==== Sys2Proof/Certificates/Slice0/Obligations.lean ====
section
/-! DEFINITION. The statements for the provers, one per numbered rule or group of rules of spec/. -/

open Sys2Proof Sys2Proof.Machine

/-! Encodings (30) -/

/-- Every well-formed instruction's bytes decode to it, every operand at every value (30 R60 to R62, R66 to R69). -/
def Obligations.DecodeOfEncodeIsTheInstruction : Prop :=
  ∀ i : Instr, i.wellFormed = true → decode (formatOf i) (encode i) = .instr i

/-- In a frame format each byte sequence has one meaning: what decodes encodes back to the same bytes (30 R66 to R69). -/
def Obligations.EncodeOfDecodedFrameIsTheFrame : Prop :=
  ∀ (f : Format) (bytes : List Byte) (i : Instr), f ≠ .req → decode f bytes = .instr i → formatOf i = f ∧ encode i = bytes

/-- In the request format, what decodes is a request record with `rsv` zero, the operation code of the instruction, the instruction's
operand in its field, and for an operation that uses the buffer exactly as many data bytes as `len` says; fewer or more are rejected by
name (30 R60, R61, R62). That such bytes are no request, and that the encoders' ignored data bytes are not counted, is the model's reading
(log 11). -/
def Obligations.DecodedRequestIsTheRequestRecord : Prop :=
  (∀ (bytes : List Byte) (i : Instr), decode .req bytes = .instr i →
    ∃ (op : BitVec 3) (kind : BitVec 1) (addr len : Byte) (data : List Byte), bytes = packRequest op kind 0 addr len data ∧
      (op = 3 ∧ i = .encRead addr ∨ op = 4 ∧ i = .encReset addr ∨
        data.length = len.toNat ∧ (op = 0 ∧ i = .compute data ∨ op = 1 ∧ i = .append data ∨ op = 2 ∧ i = .verify data ∨
          op = 5 ∧ kind = 0 ∧ i = .validateReadRsp data ∨ op = 5 ∧ kind = 1 ∧ i = .validateResetAck data))) ∧
  (∀ (op : BitVec 3) (kind : BitVec 1) (addr len : Byte) (data : List Byte), (op = 0 ∨ op = 1 ∨ op = 2 ∨ op = 5) →
    (data.length < len.toNat → decode .req (packRequest op kind 0 addr len data) = .rejected .missingData) ∧
    (len.toNat < data.length → decode .req (packRequest op kind 0 addr len data) = .rejected .excessData))

/-- Whatever decodes is well-formed and of the format it was presented in (30 R60: every encodable `len` is legal; R68). -/
def Obligations.DecodedInstructionIsWellFormed : Prop :=
  ∀ (f : Format) (bytes : List Byte) (i : Instr), decode f bytes = .instr i → i.wellFormed = true ∧ formatOf i = f

/-- The operation codes with every unused field at every value: `COMPUTE`, `APPEND`, `VERIFY` ignore `kind` and `addr`; the encoders ignore
`kind`, `len` and `data`; `VALIDATE` ignores `addr` (30 R60, R61, R62). -/
def Obligations.UnusedRequestFieldsAreIgnored : Prop :=
  ∀ (kind : BitVec 1) (addr len : Byte) (data : List Byte),
    decode .req (packRequest 3 kind 0 addr len data) = .instr (.encRead addr) ∧
    decode .req (packRequest 4 kind 0 addr len data) = .instr (.encReset addr) ∧
    (data.length = len.toNat →
      decode .req (packRequest 0 kind 0 addr len data) = .instr (.compute data) ∧
      decode .req (packRequest 1 kind 0 addr len data) = .instr (.append data) ∧
      decode .req (packRequest 2 kind 0 addr len data) = .instr (.verify data) ∧
      decode .req (packRequest 5 0 0 addr len data) = .instr (.validateReadRsp data) ∧
      decode .req (packRequest 5 1 0 addr len data) = .instr (.validateResetAck data))

/-- A reserved `op` or a non-zero `rsv`: `INVALID_INPUT`, every other response field zero, nothing else is done; the other fields are not
examined (30 R78). -/
def Obligations.MalformedRequestIsAnsweredInvalidInput : Prop :=
  ∀ (s : State) (b addr len : Byte) (data : List Byte),
    s.pending = some { format := .req, bytes := b :: addr :: len :: data } →
    (rsvField b ≠ 0 ∨ opField b = 6 ∨ opField b = 7) →
    ∃ t, step s = .next t ∧ t.params = s.params ∧ t.pending = none ∧
      t.response = some { status := .invalidInput, valid := false, crc := 0, len := 0, data := [] }

/-- Words written out from the spec's encodings (30 R60, R66, R67; 95 L2-CE-11, L2-FV-17, L2-FE-2, L2-RQ-1). -/
def Obligations.SpecWordsDecodeAsTheSpecSays : Prop :=
  decode .req [0x00, 0x00, 0x06, 0x01, 0x04, 0x00, 0x00, 0x00, 0x0A] = .instr (.compute [0x01, 0x04, 0x00, 0x00, 0x00, 0x0A]) ∧
  decode .req [0x0D, 0x00, 0x05, 0x01, 0x42, 0x00, 0x10, 0xA0] = .instr (.validateResetAck [0x01, 0x42, 0x00, 0x10, 0xA0]) ∧
  decode .req [0x03, 0x01, 0x00] = .instr (.encRead 0x01) ∧
  decode .req [0x06, 0x00, 0x00] = .malformed ∧
  decode .cmd8 [0x01, 0x04, 0x00, 0x00, 0x00, 0x0A, 0x70, 0x0D] = .instr (.readCommandFrame 0x01 0x70 0x0D) ∧
  decode .cmd4 [0x01, 0x42, 0x80, 0x11] = .instr (.resetCommandFrame 0x01 0x80 0x11)

/-- The packed response: `status` in bits 1..0 and `valid` in bit 2 of header byte 0, zeros above, then the checksum low byte first, `len`
and the data; nothing of a response is lost (30 R63). The status codes are 0 to 3 in the order of 60 R180. -/
def Obligations.PackedResponseKeepsEveryField : Prop :=
  (∀ r : Response, ∃ b : Byte, packResponse r = b :: lo r.crc :: hi r.crc :: r.len :: r.data ∧
    b.extractLsb' 0 2 = statusCode r.status ∧ b.getLsbD 2 = r.valid ∧ b.extractLsb' 3 5 = 0) ∧
  (∀ r r' : Response, packResponse r = packResponse r' → r = r') ∧
  statusCode .ok = 0 ∧ statusCode .truncatedFrame = 1 ∧ statusCode .checksumMismatch = 2 ∧ statusCode .invalidInput = 3

/-! The checksum function (20 R44, 40 R90 to R97, R104, R105) -/

/-- The table-driven update is eight bit-serial steps, with the spec's example (40 R96, which the spec
marks as derived from 40 R92 and 20 R44). -/
def Obligations.TableFormEqualsBitSerialForm : Prop :=
  (∀ (c : Word) (b : Byte), crcStep c b = step8 (c ^^^ b.setWidth 16)) ∧ crcStep 0xFFFF 0x01 = 0x807E

/-- `crc16` of nothing, of one byte more, and of a concatenation (40 R97 (a), (b), which the spec marks as derived from R92
and R94). -/
def Obligations.ChecksumIsAFoldOfTheUpdate : Prop :=
  crc16 [] = 0xFFFF ∧ (∀ (s : List Byte) (b : Byte), crc16 (s ++ [b]) = crcStep (crc16 s) b) ∧
  (∀ s t : List Byte, crc16 (s ++ t) = t.foldl crcStep (crc16 s))

/-- For a fixed byte the update is a bijection of the accumulator; for a fixed accumulator it is injective in the byte (the reason
the spec gives under 40 R104 from general knowledge; it rests on 40 R92 and 20 R44). -/
def Obligations.UpdateLosesNothing : Prop :=
  (∀ b : Byte, Function.Bijective (fun c : Word => crcStep c b)) ∧ (∀ c : Word, Function.Injective (crcStep c))

/-- The 256 high bytes of the table are all different, and `T[0]` is the only entry with a zero high byte (said under 40 R105 from
general knowledge; it rests on the table of 20 R44). -/
def Obligations.TableHighBytesAreDistinct : Prop :=
  (∀ i j : Byte, hi (tabRead i) = hi (tabRead j) → i = j) ∧ (∀ i : Byte, hi (tabRead i) = 0 ↔ i = 0)

/-- Any single flipped bit of a checksummed buffer, the checksum bytes included, makes `VERIFY` answer `valid = 0` (40 R104,
which the spec marks as derived from R92, R94, R101; 90 C4). -/
def Obligations.SingleBitFlipIsAlwaysRejected : Prop :=
  ∀ (s : State) (f : List Byte) (k j : Nat), checksummed f = true → f.length ≤ Config.fbCap → k < f.length → j < 8 →
    ∃ t r, exec (.verify (flipBit f k j)) s = .next t ∧ t.response = some r ∧ r.status = .ok ∧ r.valid = false

/-- The residue: a checksummed frame has checksum zero, and a buffer longer than 2 verifies exactly when its own checksum is zero
(40 R105, which the spec marks as derived from R92, R94 and 20 R44). -/
def Obligations.VerifyExactlyWhenResidueIsZero : Prop :=
  (∀ f : List Byte, checksummed f = true → crc16 f = 0) ∧
  (∀ (s : State) (f : List Byte), 2 < f.length → f.length ≤ Config.fbCap →
    ∃ t r, exec (.verify f) s = .next t ∧ t.response = some r ∧ (r.valid = true ↔ crc16 f = 0))

/-! Checksum Engine operations (40) -/

/-- `COMPUTE`: the result, the registers, the frame, and the same answer to every request that asks for it (40 R95). -/
def Obligations.ComputeAnswersTheChecksum : Prop :=
  ∀ (s : State) (data : List Byte), data.length ≤ Config.fbCap →
    (∃ t, exec (.compute data) s = .next t ∧
      t.response = some { status := .ok, valid := false, crc := crc16 data, len := 0, data := [] } ∧
      t.crc = crc16 data ∧ t.idx = data.length ∧ t.wlen = data.length ∧ SameShell s t ∧ BufferBecomes s t data) ∧
    (∀ kind addr, Asks s 0 kind addr data →
      answerOf (step s) = some { status := .ok, valid := false, crc := crc16 data, len := 0, data := [] })

/-- `APPEND` on more than two bytes: the payload unchanged, then its checksum, low byte first (40 R98). -/
def Obligations.AppendWritesTheChecksum : Prop :=
  ∀ (s : State) (data : List Byte), 2 < data.length → data.length ≤ Config.fbCap →
    let f := payload data ++ [lo (crc16 (payload data)), hi (crc16 (payload data))]
    (∃ t, exec (.append data) s = .next t ∧
      t.response = some { status := .ok, valid := false, crc := 0, len := BitVec.ofNat 8 data.length, data := f } ∧
      t.crc = crc16 (payload data) ∧ t.idx = data.length - 2 ∧ t.wlen = data.length ∧ SameShell s t ∧ BufferBecomes s t f) ∧
    (∀ kind addr, Asks s 1 kind addr data →
      answerOf (step s) = some { status := .ok, valid := false, crc := 0, len := BitVec.ofNat 8 data.length, data := f })

/-- `APPEND` on at most two bytes: the buffer unchanged, `INVALID_INPUT` (40 R99). `WLEN` and the buffer are filled by operand sampling
(10 R24); that `CRC` and `IDX` keep their values, since no computation starts, is the model's reading of 40 R91 (log 27). -/
def Obligations.AppendOnShortBufferIsRefused : Prop :=
  ∀ (s : State) (data : List Byte), data.length ≤ 2 →
    ∃ t, exec (.append data) s = .next t ∧
      t.response = some { status := .invalidInput, valid := false, crc := 0, len := BitVec.ofNat 8 data.length, data := data } ∧
      t.crc = s.crc ∧ t.idx = s.idx ∧ t.wlen = data.length ∧ SameShell s t ∧ BufferBecomes s t data

/-- The laws of `APPEND`, (a) to (e) (40 R100, which the spec marks as derived from R98). -/
def Obligations.AppendLaws : Prop :=
  ∀ (s : State) (data : List Byte), 2 < data.length → data.length ≤ Config.fbCap →
    ∃ t r, exec (.append data) s = .next t ∧ t.response = some r ∧ r.data.length = data.length ∧
      (∀ k, k < data.length - 2 → r.data[k]? = data[k]?) ∧
      (∀ (s' : State) (other : List Byte), other.length = data.length → payload other = payload data →
        answerOf (exec (.append other) s') = some r) ∧
      (∀ s' : State, answerOf (exec (.append r.data) s') = some r) ∧ checksummed r.data = true

/-- `VERIFY` on more than two bytes: whether the recomputed checksum equals the embedded one, status `OK` either way; the buffer is not
modified (40 R101). -/
def Obligations.VerifyComparesTheChecksum : Prop :=
  ∀ (s : State) (p : List Byte) (l h : Byte), 0 < p.length → p.length + 2 ≤ Config.fbCap →
    let response : Response := { status := .ok, valid := decide (crc16 p = joinBytes h l), crc := 0, len := 0, data := [] }
    (∃ t, exec (.verify (p ++ [l, h])) s = .next t ∧ t.response = some response ∧
      t.crc = crc16 p ∧ t.idx = p.length ∧ t.wlen = p.length + 2 ∧ SameShell s t ∧ BufferBecomes s t (p ++ [l, h])) ∧
    (∀ kind addr, Asks s 2 kind addr (p ++ [l, h]) → answerOf (step s) = some response)

/-- `VERIFY` on at most two bytes answers `valid = 0`, whatever the bytes, and computes no checksum (40 R102). -/
def Obligations.VerifyOnShortBufferIsFalse : Prop :=
  ∀ (s : State) (data : List Byte), data.length ≤ 2 →
    ∃ t, exec (.verify data) s = .next t ∧
      t.response = some { status := .ok, valid := false, crc := 0, len := 0, data := [] } ∧
      t.crc = s.crc ∧ t.idx = s.idx ∧ t.wlen = data.length ∧ SameShell s t ∧ BufferBecomes s t data

/-- The round trip: `VERIFY` of what `APPEND` returns answers `valid = 1`, from length 3 on, whatever state each runs in (40 R103, which
the spec marks as derived from R98 and R101). -/
def Obligations.AppendThenVerifyIsValid : Prop :=
  ∀ (s s' : State) (data : List Byte), 2 < data.length → data.length ≤ Config.fbCap →
    ∃ t r t', exec (.append data) s = .next t ∧ t.response = some r ∧ exec (.verify r.data) s' = .next t' ∧
      t'.response = some { status := .ok, valid := true, crc := 0, len := 0, data := [] }

/-! Frame Encoder (41) -/

/-- `ENC_READ`: on an accepted address the eight bytes of format CMD8, on a refused one `INVALID_INPUT` and nothing else; `kind`, `len` and
`data` are ignored (41 R121). -/
def Obligations.EncReadBuildsTheReadFrame : Prop :=
  ∀ (s : State) (a : Byte),
    let c := crc16 [a, 0x04, 0x00, 0x00, 0x00, 0x0A]
    let f : List Byte := [a, 0x04, 0x00, 0x00, 0x00, 0x0A, lo c, hi c]
    let response : Response := if addrOk s.params a then { status := .ok, valid := false, crc := 0, len := 8, data := f }
      else { status := .invalidInput, valid := false, crc := 0, len := 0, data := [] }
    (addrOk s.params a = true → ∃ t, exec (.encRead a) s = .next t ∧ t.response = some response ∧
      t.crc = c ∧ t.idx = 6 ∧ t.wlen = 8 ∧ SameShell s t ∧ BufferBecomes s t f) ∧
    (addrOk s.params a = false → exec (.encRead a) s = .next { s with response := some response }) ∧
    (∀ kind data, Asks s 3 kind a data → answerOf (step s) = some response)

/-- `ENC_RESET`: on an accepted address the four bytes of format CMD4, on a refused one `INVALID_INPUT` and nothing else; `kind`, `len` and
`data` are ignored (41 R125). -/
def Obligations.EncResetBuildsTheResetFrame : Prop :=
  ∀ (s : State) (a : Byte),
    let c := crc16 [a, 0x42]
    let f : List Byte := [a, 0x42, lo c, hi c]
    let response : Response := if addrOk s.params a then { status := .ok, valid := false, crc := 0, len := 4, data := f }
      else { status := .invalidInput, valid := false, crc := 0, len := 0, data := [] }
    (addrOk s.params a = true → ∃ t, exec (.encReset a) s = .next t ∧ t.response = some response ∧
      t.crc = c ∧ t.idx = 2 ∧ t.wlen = 4 ∧ SameShell s t ∧ BufferBecomes s t f) ∧
    (addrOk s.params a = false → exec (.encReset a) s = .next { s with response := some response }) ∧
    (∀ kind data, Asks s 4 kind a data → answerOf (step s) = some response)

/-- An address `ADDR_OK` is false of: `INVALID_INPUT`, no frame, and nothing is built, for the four instructions that build a frame.
Under the default no address is refused (41 R123). That the two command-frame rows are encoder operations, to which R123 applies, is the
model's choice (log 1). -/
def Obligations.RefusedAddressBuildsNothing : Prop :=
  (∀ (s : State) (a l h : Byte) (i : Instr), addrOk s.params a = false →
    (i = .encRead a ∨ i = .encReset a ∨ i = .readCommandFrame a l h ∨ i = .resetCommandFrame a l h) →
    exec i s = .next { s with response := some { status := .invalidInput, valid := false, crc := 0, len := 0, data := [] } }) ∧
  (∀ a : Byte, addrOk Config.defaultParams a = true)

/-- The laws of the encoder, for accepted addresses: lengths, checksummed with residue zero, never the same frame twice for different
operations or addresses (41 R126 (a), (b), (c)), the same frame from every state that accepts the address ((d)), and the closed form over
what `COMPUTE` answers, from whatever state it is asked ((e)).
The spec marks R126 as derived from R121, R125 and 40 R100, R103. -/
def Obligations.EncoderLaws : Prop :=
  ∀ (s s' u : State) (a b : Byte), addrOk s.params a = true → addrOk s.params b = true →
    addrOk s'.params a = true →
    ∃ r q c d, answerOf (exec (.encRead a) s) = some r ∧ answerOf (exec (.encReset a) s) = some q ∧
      answerOf (exec (.compute [a, 0x04, 0x00, 0x00, 0x00, 0x0A]) u) = some { status := .ok, valid := false, crc := c, len := 0, data := [] } ∧
      r.data = [a, 0x04, 0x00, 0x00, 0x00, 0x0A] ++ [lo c, hi c] ∧
      answerOf (exec (.compute [a, 0x42]) u) = some { status := .ok, valid := false, crc := d, len := 0, data := [] } ∧
      q.data = [a, 0x42] ++ [lo d, hi d] ∧
      r.data.length = 8 ∧ q.data.length = 4 ∧ checksummed r.data = true ∧ checksummed q.data = true ∧
      answerOf (exec (.verify r.data) u) = some { status := .ok, valid := true, crc := 0, len := 0, data := [] } ∧
      answerOf (exec (.verify q.data) u) = some { status := .ok, valid := true, crc := 0, len := 0, data := [] } ∧
      answerOf (exec (.compute r.data) u) = some { status := .ok, valid := false, crc := 0, len := 0, data := [] } ∧
      answerOf (exec (.compute q.data) u) = some { status := .ok, valid := false, crc := 0, len := 0, data := [] } ∧
      r.data[0]? = some a ∧ q.data[0]? = some a ∧ r.data[1]? = some 0x04 ∧ q.data[1]? = some 0x42 ∧
      (answerOf (exec (.encRead b) s) = some r ↔ a = b) ∧ (answerOf (exec (.encReset b) s) = some q ↔ a = b) ∧
      answerOf (exec (.encRead a) s') = some r ∧ answerOf (exec (.encReset a) s') = some q

/-- The command-frame rows answer as the encoder operation their rule names, and leave the same registers and buffer; the frame's own
checksum bytes play no part. That a frame row has this meaning is the model's reading (log 1) of 30 R72. -/
def Obligations.CommandFrameRowsBuildTheFrame : Prop :=
  ∀ (s : State) (a l h : Byte),
    (∃ t t', exec (.readCommandFrame a l h) s = .next t ∧ exec (.encRead a) s = .next t' ∧ t.response = t'.response ∧
      t.crc = t'.crc ∧ t.idx = t'.idx ∧ t.wlen = t'.wlen ∧ SameShell s t ∧ (∀ k, t.wb.read k = t'.wb.read k)) ∧
    (∃ t t', exec (.resetCommandFrame a l h) s = .next t ∧ exec (.encReset a) s = .next t' ∧ t.response = t'.response ∧
      t.crc = t'.crc ∧ t.idx = t'.idx ∧ t.wlen = t'.wlen ∧ SameShell s t ∧ (∀ k, t.wb.read k = t'.wb.read k))

/-! Frame Validator (42) -/

/-- `VALIDATE READ_RSP`: the verdict of every buffer, the registers, the frame; the checksum is computed only for a buffer of exactly
25 bytes (42 R136, R137, R138). That `WLEN` and the buffer are filled before the over-length test rests on 10 R24 as the model reads it
(log 26). -/
def Obligations.ValidateReadRspJudgesEveryBuffer : Prop :=
  ∀ (s : State) (data : List Byte), data.length ≤ Config.fbCap →
    let st : Status := if 25 < data.length then .invalidInput else if data.length < 25 then .truncatedFrame
      else if checksummed data then .ok else .checksumMismatch
    (∃ t, exec (.validateReadRsp data) s = .next t ∧
      t.response = some { status := st, valid := decide (st = .ok), crc := 0, len := 0, data := [] } ∧
      t.crc = (if data.length = 25 then crc16 (data.take 23) else s.crc) ∧
      t.idx = (if data.length = 25 then 23 else s.idx) ∧ t.wlen = data.length ∧ SameShell s t ∧ BufferBecomes s t data) ∧
    (∀ addr, Asks s 5 0 addr data →
      answerOf (step s) = some { status := st, valid := decide (st = .ok), crc := 0, len := 0, data := [] })

/-- `VALIDATE RESET_ACK` under the instance `AS_SOURCE` (42 R140). The class of the rejection at length 5 is a label of convenience
(92 D10). -/
def Obligations.ResetAckAsSource : Prop :=
  ∀ (s : State) (data : List Byte), s.params.resetAckJudge = .asSource → data.length ≤ 5 →
    let st : Status := if data.length = 0 then .truncatedFrame else if data.length ≤ 4 then .ok else .checksumMismatch
    ∃ t, exec (.validateResetAck data) s = .next t ∧
      t.response = some { status := st, valid := decide (1 ≤ data.length ∧ data.length ≤ 4), crc := 0, len := 0, data := [] } ∧
      t.crc = s.crc ∧ t.idx = s.idx ∧ t.wlen = data.length ∧ SameShell s t ∧ BufferBecomes s t data

/-- `VALIDATE RESET_ACK` under the instance `STRICT`: the fixed-length judgement with 5 (42 R140, R137). -/
def Obligations.ResetAckStrict : Prop :=
  ∀ (s : State) (data : List Byte), s.params.resetAckJudge = .strict → data.length ≤ 5 →
    let st : Status := if data.length < 5 then .truncatedFrame else if checksummed data then .ok else .checksumMismatch
    ∃ t, exec (.validateResetAck data) s = .next t ∧
      t.response = some { status := st, valid := decide (st = .ok), crc := 0, len := 0, data := [] } ∧
      t.crc = (if data.length = 5 then crc16 (data.take 3) else s.crc) ∧
      t.idx = (if data.length = 5 then 3 else s.idx) ∧ t.wlen = data.length ∧ SameShell s t ∧ BufferBecomes s t data

/-- `VALIDATE RESET_ACK` under the open parameter: the status is the parameter's value at the buffer, whatever function it is, and accept is
`status == OK` (42 R140, R136). Whether such a function uses the checksum registers the spec does not say, so nothing is stated of them
here (log 7). -/
def Obligations.ResetAckOpenParameter : Prop :=
  ∀ (s : State) (data : List Byte), s.params.resetAckJudge = .openParameter → data.length ≤ 5 →
    ∃ t, exec (.validateResetAck data) s = .next t ∧
      t.response = some { status := Config.openJudge data, valid := decide (Config.openJudge data = .ok), crc := 0, len := 0, data := [] } ∧
      t.wlen = data.length ∧ SameShell s t ∧ BufferBecomes s t data

/-- A buffer longer than the expected length: `INVALID_INPUT`, `valid = 0`, for either kind and every judge, with no checksum computed and
no judge consulted (42 R138). That `WLEN` and the buffer are filled all the same rests on 10 R24 as the model reads it (log 26). -/
def Obligations.OverLongBufferIsInvalidInput : Prop :=
  ∀ (s : State) (data : List Byte) (i : Instr), data.length ≤ Config.fbCap →
    (i = .validateReadRsp data ∧ 25 < data.length ∨ i = .validateResetAck data ∧ 5 < data.length) →
    ∃ t, exec i s = .next t ∧
      t.response = some { status := .invalidInput, valid := false, crc := 0, len := 0, data := [] } ∧
      t.crc = s.crc ∧ t.idx = s.idx ∧ t.wlen = data.length ∧ SameShell s t ∧ BufferBecomes s t data

/-- The laws of `VALIDATE READ_RSP`: accepted exactly when 25 bytes and checksummed ((a)); the answer depends on the buffer alone ((c));
an accepted buffer with any bit flipped is a `CHECKSUM_MISMATCH` ((d)); every 25-byte buffer becomes acceptable by `APPEND` ((e))
(42 R142, which the spec marks as derived from R136 to R140 and 40 R101, R103, R104). -/
def Obligations.ValidateReadRspLaws : Prop :=
  ∀ (s s' : State) (f : List Byte), f.length ≤ Config.fbCap →
    ((∃ r, answerOf (exec (.validateReadRsp f) s) = some r ∧ r.status = .ok) ↔
      f.length = 25 ∧ f.drop 23 = [lo (crc16 (f.take 23)), hi (crc16 (f.take 23))]) ∧
    answerOf (exec (.validateReadRsp f) s) = answerOf (exec (.validateReadRsp f) s') ∧
    (∀ k j, f.length = 25 → checksummed f = true → k < 25 → j < 8 →
      answerOf (exec (.validateReadRsp (flipBit f k j)) s) =
        some { status := .checksumMismatch, valid := false, crc := 0, len := 0, data := [] }) ∧
    (f.length = 25 → ∃ r, answerOf (exec (.append f) s) = some r ∧
      answerOf (exec (.validateReadRsp r.data) s') = some { status := .ok, valid := true, crc := 0, len := 0, data := [] })

/-- The validator examines neither the echoed address, nor the function code, nor the byte count, nor the payload: whatever the first 23
bytes are, with their checksum the frame is accepted (42 R139, 30 R77). -/
def Obligations.ValidatorExaminesOnlyLengthAndChecksum : Prop :=
  ∀ (s : State) (p : List Byte), p.length = 23 →
    ∃ t, exec (.validateReadRsp (p ++ [lo (crc16 p), hi (crc16 p)])) s = .next t ∧
      t.response = some { status := .ok, valid := true, crc := 0, len := 0, data := [] }

/-- A wrong `kind` is not detected: 5 bytes judged as READ_RSP are truncated, 25 bytes judged as RESET_ACK are invalid input, whatever they
hold and whatever the judge (70 R209, which the spec marks as derived from 42 R136 to R138). -/
def Obligations.WrongKindIsJudgedByLength : Prop :=
  ∀ (s : State) (data : List Byte),
    (data.length = 5 → answerOf (exec (.validateReadRsp data) s) =
      some { status := .truncatedFrame, valid := false, crc := 0, len := 0, data := [] }) ∧
    (data.length = 25 → answerOf (exec (.validateResetAck data) s) =
      some { status := .invalidInput, valid := false, crc := 0, len := 0, data := [] })

/-- The response-frame rows answer as `VALIDATE` answers for the frame's bytes, and leave the same state. That a frame row has this
meaning is the model's reading (log 1) of 30 R72. -/
def Obligations.ResponseFrameRowsAreJudged : Prop :=
  (∀ (s : State) (e f n : Byte) (regs : List Word) (l h : Byte), regs.length = 10 →
    ∃ t, exec (.readResponseFrame e f n regs l h) s = .next t ∧
      exec (.validateReadRsp (encode (.readResponseFrame e f n regs l h))) s = .next t ∧
      (encode (.readResponseFrame e f n regs l h)).length = 25 ∧
      t.response = some (if checksummed (encode (.readResponseFrame e f n regs l h))
        then { status := .ok, valid := true, crc := 0, len := 0, data := [] }
        else { status := .checksumMismatch, valid := false, crc := 0, len := 0, data := [] })) ∧
  (∀ (s : State) (x0 x1 x2 l h : Byte),
    ∃ t, exec (.resetAckFrame x0 x1 x2 l h) s = .next t ∧ exec (.validateResetAck [x0, x1, x2, l, h]) s = .next t ∧
      t.wlen = 5 ∧ SameShell s t ∧ BufferBecomes s t [x0, x1, x2, l, h])

/-! The machine (00, 10, 20, 60, 70) -/

/-- A step runs the decoded instruction: with bytes pending that decode to `i`, the step is `exec i` on the idle block with the same
parameters. What the working registers hold then is the free values of log 4. -/
def Obligations.StepRunsTheDecodedInstruction : Prop :=
  ∀ (s : State) (p : Presented) (i : Instr), s.pending = some p → decode p.format p.bytes = .instr i →
    step s = exec i s.accept ∧ s.accept.params = s.params ∧ s.accept.pending = none ∧ s.accept.response = none

/-- With no request the block waits (70 R200, 00 R12). That waiting is a step which changes nothing is the model's choice (log 18). -/
def Obligations.IdleBlockWaits : Prop := ∀ s : State, s.pending = none → step s = .next s

/-- After reset, and after a reset from any state, the block is idle: no operation in flight, no response pending, the parameters at their
configured values, and the invariant holds whatever the unspecified registers hold (70 R200, 10 R31). -/
def Obligations.ResetLeavesTheBlockIdle : Prop :=
  State.reset.pending = none ∧ State.reset.response = none ∧ State.reset.params = Config.defaultParams ∧ State.reset.Inv ∧
  (∀ s : State, s.hostReset.pending = none ∧ s.hostReset.response = none ∧ s.hostReset.params = s.params ∧ s.hostReset.Inv)

/-- In every state that has the invariant each of the `FB_CAP` cells of `WB` holds a byte and there is no other cell; so `MemRead` answers
at exactly the offsets below `WLEN` (20 R40, R41), also where nothing has been written since reset (10 R31: any value). That every cell is
listed in State is the model's choice (log 5). -/
def Obligations.EveryWorkingByteIsReadable : Prop :=
  ∀ (s : State) (a : Nat), s.Inv →
    ((∃ v, s.wb.read a = some v) ↔ a < Config.fbCap) ∧
    (a < s.wlen → ∃ v, s.wb.read a = some v ∧ memRead a s = .ok v) ∧
    (s.wlen ≤ a → memRead a s = .error .offsetOutOfRange)

/-- After reset, and when a request is taken, a byte of `WB` is a free value, of which nothing is known (10 R31, 93 U7; that it is drawn so
is the model's choice, log 3 and log 4). -/
def Obligations.UnwrittenWorkingBytesAreFree : Prop :=
  (∃ k, ∀ a, a < Config.fbCap → State.reset.wb.read a = some (Config.freeWb k a)) ∧
  ∀ (s : State) (a : Nat), a < Config.fbCap →
    s.hostReset.wb.read a = some (Config.freeWb s.draws a) ∧
    s.accept.wb.read a = some (Config.freeWb s.draws a)

/-- Every step keeps the invariant: the working buffer canonical with exactly its `FB_CAP` cells, `IDX` and `WLEN` in range, the response's `len` and
`valid` as 30 R63 and 42 R136 have them. -/
def Obligations.StepKeepsTheInvariant : Prop :=
  ∀ s t : State, s.Inv → step s = .next t → t.Inv

/-- Every instruction keeps the invariant, from every state that has it, ill-formed instructions included. -/
def Obligations.ExecKeepsTheInvariant : Prop :=
  ∀ (i : Instr) (s t : State), s.Inv → exec i s = .next t → t.Inv

/-- No instruction an encoding expresses ever faults: from every state it answers (20 R41, derived by the spec: no rule issues an access out of
range;
10 R20: every register is written before it is read; 70 R213: every operation answers). -/
def Obligations.EveryWellFormedInstructionAnswers : Prop :=
  ∀ (i : Instr) (s : State), i.wellFormed = true → ∃ t r, exec i s = .next t ∧ t.response = some r

/-- Nothing is carried from one operation to the next: the answer depends on the request and the parameters alone (10 R20, R25; 60 R185).
It holds for every free value the working registers can have. -/
def Obligations.NothingCarriesOverBetweenOperations : Prop :=
  (∀ s s' : State, s.params = s'.params → s.pending = s'.pending → s.pending ≠ none → answerOf (step s) = answerOf (step s')) ∧
  (∀ (i : Instr) (s s' : State), s.params = s'.params → answerOf (exec i s) = answerOf (exec i s'))

/-- The frame of every instruction: the parameters, the request slot and the free-value counter are unchanged, and so is every byte of
the working buffer beyond the bytes the instruction fills (10 R24, R26). -/
def Obligations.ExecFrame : Prop :=
  ∀ (i : Instr) (s t : State), exec i s = .next t →
    SameShell s t ∧ (∀ a, bufferLength i ≤ a → t.wb.read a = s.wb.read a)

/-- No step writes the parameters (10 R26). -/
def Obligations.ParametersAreNeverWritten : Prop := ∀ s t : State, step s = .next t → t.params = s.params

/-- Which operation reports which class (60 R181, a table the spec marks as derived from the rules it cites). Under
`AS_SOURCE` the class at lengths 0 and 5 is the spec's own label, on which no claim should lean (42 R140, 92 D10; log 8). -/
def Obligations.StatusClassesByOperation : Prop :=
  ∀ (s : State) (data : List Byte) (a : Byte) (r : Response),
    (answerOf (exec (.compute data) s) = some r → r.status = .ok) ∧
    (answerOf (exec (.append data) s) = some r → r.status = if data.length ≤ 2 then .invalidInput else .ok) ∧
    (answerOf (exec (.verify data) s) = some r → r.status = .ok) ∧
    (answerOf (exec (.encRead a) s) = some r → r.status = if addrOk s.params a then .ok else .invalidInput) ∧
    (answerOf (exec (.encReset a) s) = some r → r.status = if addrOk s.params a then .ok else .invalidInput) ∧
    (answerOf (exec (.validateReadRsp data) s) = some r → r.status = if 25 < data.length then .invalidInput
      else if data.length < 25 then .truncatedFrame else if checksummed data then .ok else .checksumMismatch) ∧
    (answerOf (exec (.validateResetAck data) s) = some r → r.status = if 5 < data.length then .invalidInput
      else match s.params.resetAckJudge with
        | .openParameter => Config.openJudge data
        | .asSource => if data.length = 0 then .truncatedFrame else if data.length < 5 then .ok else .checksumMismatch
        | .strict => if data.length < 5 then .truncatedFrame else if checksummed data then .ok else .checksumMismatch)

/-- A failure carries nothing that could be mistaken for a result: `valid` and `crc` zero, and no buffer but `APPEND`'s unchanged input
(60 R184). -/
def Obligations.FailureCarriesNoResult : Prop :=
  ∀ (i : Instr) (s : State) (r : Response), answerOf (exec i s) = some r → r.status ≠ .ok →
    r.valid = false ∧ r.crc = 0 ∧ (r.data = [] ∨ ∃ data, i = .append data ∧ r.data = data)

/-- Requests asked one after another are answered in the order they are presented, each as the idle block would answer it alone (20 R48,
70 R206, 60 R185). -/
def Obligations.RequestsAreAnsweredInOrder : Prop :=
  ∀ (s : State) (is : List Instr), s.pending = none → (∀ i ∈ is, i.wellFormed = true) →
    ∃ rs t, askAll (is.map requestFor) s = some (rs, t) ∧ t.pending = none ∧ t.params = s.params ∧
      rs.map some = is.map (fun i => answerOf (exec i (State.idle s.params 0)))

/-- There is no move for a request presented before the previous one has been answered; presenting to an idle block changes only the
request slot (70 R207, 93 U5). -/
def Obligations.OverlappingRequestHasNoMove : Prop :=
  ∀ (s : State) (p q : Presented), (s.pending = some q → s.present p = none ∧ ask p s = none) ∧
    (s.pending = none → s.present p = some { s with pending := some p })

/-! Context: the host around the block (45, outside the block) -/

/-- The Transport Reader reads up to `n` bytes: the first `n` of those the attempts before the first empty one yield, so it stops early
there and otherwise goes on to `n`. They are at most `n`, in arrival order from the first (45 R151). -/
def Obligations.TransportReaderGivesAPrefix : Prop :=
  ∀ (n : Nat) (attempts : List (List Byte)),
    readUpTo n attempts = (attempts.takeWhile (fun chunk => !chunk.isEmpty)).flatten.take n ∧
    (readUpTo n attempts).length ≤ n ∧ readUpTo n attempts <+: attempts.flatten

/-- The Register Decoder is defined on exactly the buffers `VALIDATE READ_RSP` accepts, whatever state they are judged in (45 R161). -/
def Obligations.DecoderIsDefinedOnAcceptedBuffers : Prop :=
  ∀ (s : State) (b : List Byte), (∃ m, decodeMeasurement b = some m) ↔
    ∃ r, answerOf (exec (.validateReadRsp b) s) = some r ∧ r.status = .ok

/-- The Register Decoder's table on every accepted buffer: byte pairs big-endian, the 32-bit fields word-swapped, each with its scale
(45 R160). The quotients are exact, before any rounding to a float (log 21). -/
def Obligations.DecoderReadsTheRegisterTable : Prop :=
  ∀ b : List Byte, b.length = 25 → checksummed b = true →
    let n : Nat → Nat := fun k => (b.getD k 0).toNat
    ∃ m, decodeMeasurement b = some m ∧
      m.voltage = ((n 3 * 256 + n 4 : Nat) : Rat) / 10 ∧
      m.current = (((n 7 * 256 + n 8) * 65536 + (n 5 * 256 + n 6) : Nat) : Rat) / 1000 ∧
      m.activePower = (((n 11 * 256 + n 12) * 65536 + (n 9 * 256 + n 10) : Nat) : Rat) / 10 ∧
      m.energy = (((n 15 * 256 + n 16) * 65536 + (n 13 * 256 + n 14) : Nat) : Rat) / 1000 ∧
      m.frequency = ((n 17 * 256 + n 18 : Nat) : Rat) / 10 ∧ m.powerFactor = ((n 19 * 256 + n 20 : Nat) : Rat) / 100 ∧
      m.alarm.toNat = n 21 * 256 + n 22

/-- The driver's `request`: it transmits the read frame; fewer than 25 bytes give TruncatedFrame, 25 bytes with a wrong checksum give
ChecksumMismatch, otherwise the Measurement of the received bytes (45 R165, R171). The decoded fields are exact quotients (log 21). -/
def Obligations.DriverRequestOutcomes : Prop :=
  ∀ (s : State) (a : Byte) (bus : List Byte → List (List Byte)), s.pending = none → addrOk s.params a = true →
    let c := crc16 [a, 0x04, 0x00, 0x00, 0x00, 0x0A]
    let buf := readUpTo 25 (bus [a, 0x04, 0x00, 0x00, 0x00, 0x0A, lo c, hi c])
    ∃ t, (buf.length < 25 → driverRequest (some a) bus s = some (.error .truncatedFrame, t)) ∧
      (buf.length = 25 → checksummed buf = false → driverRequest (some a) bus s = some (.error .checksumMismatch, t)) ∧
      (buf.length = 25 → checksummed buf = true →
        ∃ m, decodeMeasurement buf = some m ∧ driverRequest (some a) bus s = some (.ok m, t))

/-- The driver's `reset`: it transmits the reset frame, and its outcome is `VALIDATE RESET_ACK`'s verdict on at most 5 received bytes, by the
configured judge (45 R166). -/
def Obligations.DriverResetOutcome : Prop :=
  ∀ (s : State) (a : Byte) (bus : List Byte → List (List Byte)), s.pending = none → addrOk s.params a = true →
    let c := crc16 [a, 0x42]
    let buf := readUpTo 5 (bus [a, 0x42, lo c, hi c])
    ∃ r t, answerOf (exec (.validateResetAck buf) s) = some r ∧
      driverReset (some a) bus s = some (if r.status = .ok then .ok () else .error r.status, t)
end

