-- ==== Sys2Proof/Laws/Crc.lean ====
section
/-! SUPPORT. The algebra of the checksum function: the bit-serial step is linear over exclusive-or and loses nothing. -/

namespace Sys2Proof.Machine

/-- One bit-serial step as a shift and a conditional polynomial. -/
theorem step1_eq (v : Word) : step1 v = (v >>> 1) ^^^ (if v.getLsbD 0 then Config.crcPoly else 0) := by
  unfold step1
  split <;> simp

theorem step1_xor (a b : Word) : step1 (a ^^^ b) = step1 a ^^^ step1 b := by
  rw [step1_eq, step1_eq, step1_eq, BitVec.ushiftRight_xor_distrib, BitVec.getLsbD_xor]
  generalize a >>> 1 = x
  generalize b >>> 1 = y
  cases a.getLsbD 0 <;> cases b.getLsbD 0 <;> simp [BitVec.xor_assoc]
  exact BitVec.xor_comm _ _

/-- Eight bit-serial steps are linear over exclusive-or (40 R96). -/
theorem step8_xor (a b : Word) : step8 (a ^^^ b) = step8 a ^^^ step8 b := by
  simp only [step8, step1_xor]

theorem step1_zero : step1 0 = 0 := by decide

theorem step1_eq_zero {v : Word} (h : step1 v = 0) : v = 0 := by
  rw [step1_eq] at h
  by_cases hv : v.getLsbD 0
  · have := congrArg (·.getLsbD 15) h
    simp [hv] at this
  · have hs : v >>> 1 = 0 := by rw [if_neg hv] at h; simpa using h
    apply BitVec.eq_of_getLsbD_eq
    intro i hi
    cases i with
    | zero => simpa using hv
    | succ i =>
      have := congrArg (·.getLsbD i) hs
      simpa [Nat.add_comm] using this

/-- No non-zero difference of two registers becomes zero (40 R104). -/
theorem step8_eq_zero {v : Word} (h : step8 v = 0) : v = 0 :=
  step1_eq_zero (step1_eq_zero (step1_eq_zero (step1_eq_zero (step1_eq_zero (step1_eq_zero (step1_eq_zero (step1_eq_zero h)))))))

theorem step8_inj {a b : Word} (h : step8 a = step8 b) : a = b := by
  have : a ^^^ b = 0 := step8_eq_zero (by rw [step8_xor, h, BitVec.xor_self]; rfl)
  exact BitVec.xor_eq_zero_iff.mp this

end Sys2Proof.Machine
end

