-- ==== Sys2Proof/Laws/State.lean ====
section
/-! SUPPORT. One lemma per field per update of State, each true by definition. -/

namespace Sys2Proof.Machine

@[simp] theorem State.setCrc_params (s : State) (v : Word) : (s.setCrc v).params = s.params := rfl
@[simp] theorem State.setCrc_pending (s : State) (v : Word) : (s.setCrc v).pending = s.pending := rfl
@[simp] theorem State.setCrc_response (s : State) (v : Word) : (s.setCrc v).response = s.response := rfl
@[simp] theorem State.setCrc_crc (s : State) (v : Word) : (s.setCrc v).crc = v := rfl
@[simp] theorem State.setCrc_idx (s : State) (v : Word) : (s.setCrc v).idx = s.idx := rfl
@[simp] theorem State.setCrc_wlen (s : State) (v : Word) : (s.setCrc v).wlen = s.wlen := rfl
@[simp] theorem State.setCrc_wb (s : State) (v : Word) : (s.setCrc v).wb = s.wb := rfl
@[simp] theorem State.setCrc_draws (s : State) (v : Word) : (s.setCrc v).draws = s.draws := rfl

@[simp] theorem State.setIdx_params (s : State) (n : Nat) : (s.setIdx n).params = s.params := rfl
@[simp] theorem State.setIdx_pending (s : State) (n : Nat) : (s.setIdx n).pending = s.pending := rfl
@[simp] theorem State.setIdx_response (s : State) (n : Nat) : (s.setIdx n).response = s.response := rfl
@[simp] theorem State.setIdx_crc (s : State) (n : Nat) : (s.setIdx n).crc = s.crc := rfl
@[simp] theorem State.setIdx_idx (s : State) (n : Nat) : (s.setIdx n).idx = n := rfl
@[simp] theorem State.setIdx_wlen (s : State) (n : Nat) : (s.setIdx n).wlen = s.wlen := rfl
@[simp] theorem State.setIdx_wb (s : State) (n : Nat) : (s.setIdx n).wb = s.wb := rfl
@[simp] theorem State.setIdx_draws (s : State) (n : Nat) : (s.setIdx n).draws = s.draws := rfl

@[simp] theorem State.setWlen_params (s : State) (n : Nat) : (s.setWlen n).params = s.params := rfl
@[simp] theorem State.setWlen_pending (s : State) (n : Nat) : (s.setWlen n).pending = s.pending := rfl
@[simp] theorem State.setWlen_response (s : State) (n : Nat) : (s.setWlen n).response = s.response := rfl
@[simp] theorem State.setWlen_crc (s : State) (n : Nat) : (s.setWlen n).crc = s.crc := rfl
@[simp] theorem State.setWlen_idx (s : State) (n : Nat) : (s.setWlen n).idx = s.idx := rfl
@[simp] theorem State.setWlen_wlen (s : State) (n : Nat) : (s.setWlen n).wlen = n := rfl
@[simp] theorem State.setWlen_wb (s : State) (n : Nat) : (s.setWlen n).wb = s.wb := rfl
@[simp] theorem State.setWlen_draws (s : State) (n : Nat) : (s.setWlen n).draws = s.draws := rfl

@[simp] theorem State.setWb_params (s : State) (m : Memory) : (s.setWb m).params = s.params := rfl
@[simp] theorem State.setWb_pending (s : State) (m : Memory) : (s.setWb m).pending = s.pending := rfl
@[simp] theorem State.setWb_response (s : State) (m : Memory) : (s.setWb m).response = s.response := rfl
@[simp] theorem State.setWb_crc (s : State) (m : Memory) : (s.setWb m).crc = s.crc := rfl
@[simp] theorem State.setWb_idx (s : State) (m : Memory) : (s.setWb m).idx = s.idx := rfl
@[simp] theorem State.setWb_wlen (s : State) (m : Memory) : (s.setWb m).wlen = s.wlen := rfl
@[simp] theorem State.setWb_wb (s : State) (m : Memory) : (s.setWb m).wb = m := rfl
@[simp] theorem State.setWb_draws (s : State) (m : Memory) : (s.setWb m).draws = s.draws := rfl

@[simp] theorem State.answer_params (s : State) (r : Response) : (s.answer r).params = s.params := rfl
@[simp] theorem State.answer_pending (s : State) (r : Response) : (s.answer r).pending = s.pending := rfl
@[simp] theorem State.answer_response (s : State) (r : Response) : (s.answer r).response = some r := rfl
@[simp] theorem State.answer_crc (s : State) (r : Response) : (s.answer r).crc = s.crc := rfl
@[simp] theorem State.answer_idx (s : State) (r : Response) : (s.answer r).idx = s.idx := rfl
@[simp] theorem State.answer_wlen (s : State) (r : Response) : (s.answer r).wlen = s.wlen := rfl
@[simp] theorem State.answer_wb (s : State) (r : Response) : (s.answer r).wb = s.wb := rfl
@[simp] theorem State.answer_draws (s : State) (r : Response) : (s.answer r).draws = s.draws := rfl

@[simp] theorem State.idle_params (p : Params) (k : Nat) : (State.idle p k).params = p := rfl
@[simp] theorem State.idle_pending (p : Params) (k : Nat) : (State.idle p k).pending = none := rfl
@[simp] theorem State.idle_response (p : Params) (k : Nat) : (State.idle p k).response = none := rfl
@[simp] theorem State.idle_crc (p : Params) (k : Nat) : (State.idle p k).crc = Config.freeCrc k := rfl
@[simp] theorem State.idle_idx (p : Params) (k : Nat) : (State.idle p k).idx = (Config.freeIdx k).val := rfl
@[simp] theorem State.idle_wlen (p : Params) (k : Nat) : (State.idle p k).wlen = (Config.freeWlen k).val := rfl
@[simp] theorem State.idle_wb (p : Params) (k : Nat) : (State.idle p k).wb = Memory.filled (Config.freeWb k) 0 Config.fbCap := rfl
@[simp] theorem State.idle_draws (p : Params) (k : Nat) : (State.idle p k).draws = k + 1 := rfl

@[simp] theorem State.accept_params (s : State) : s.accept.params = s.params := rfl
@[simp] theorem State.accept_pending (s : State) : s.accept.pending = none := rfl
@[simp] theorem State.accept_response (s : State) : s.accept.response = none := rfl
@[simp] theorem State.accept_wb (s : State) : s.accept.wb = Memory.filled (Config.freeWb s.draws) 0 Config.fbCap := rfl
@[simp] theorem State.accept_draws (s : State) : s.accept.draws = s.draws + 1 := rfl

end Sys2Proof.Machine
end

