-- ==== Sys2Proof/Laws/Memory.lean ====
section
/-! SUPPORT. The laws of the working buffer: a read after a write, and that every operation keeps the canonical form. -/

namespace Sys2Proof.Machine

/-- The memory reads as the bytes `vs` at consecutive offsets from `a`. -/
def Memory.Holds (m : Memory) (a : Nat) (vs : List Byte) : Prop := ∀ j, j < vs.length → m.read (a + j) = vs[j]?

theorem Memory.read_write_same (m : Memory) (a : Nat) (v : Byte) : (m.write a v).read a = some v := by
  induction m with
  | nil => simp [Memory.write, Memory.read]
  | cons c rest ih =>
    obtain ⟨k, w⟩ := c
    simp only [Memory.write]
    split
    · simp [Memory.read]
    · split
      · simp [Memory.read]
      · have : k ≠ a := by omega
        simp [Memory.read, this, ih]

theorem Memory.read_write_other (m : Memory) (a b : Nat) (v : Byte) (h : b ≠ a) : (m.write a v).read b = m.read b := by
  have h' : a ≠ b := h.symm
  induction m with
  | nil => simp [Memory.write, Memory.read, h']
  | cons c rest ih =>
    obtain ⟨k, w⟩ := c
    simp only [Memory.write]
    split
    · simp [Memory.read, h']
    · split
      · subst_vars; simp [Memory.read, h']
      · simp [Memory.read, ih]

theorem Memory.wfFrom_mono {low low' : Nat} {m : Memory} (h : low' ≤ low) (hm : Memory.wfFrom low m = true) :
    Memory.wfFrom low' m = true := by
  cases m with
  | nil => rfl
  | cons c rest =>
    simp only [Memory.wfFrom, Bool.and_eq_true, decide_eq_true_eq] at hm ⊢
    exact ⟨by omega, hm.2⟩

theorem Memory.wfFrom_write {m : Memory} {low a : Nat} (v : Byte) (ha : low ≤ a) (hm : Memory.wfFrom low m = true) :
    Memory.wfFrom low (m.write a v) = true := by
  induction m generalizing low with
  | nil => simp [Memory.write, Memory.wfFrom, ha]
  | cons c rest ih =>
    obtain ⟨k, w⟩ := c
    simp only [Memory.wfFrom, Bool.and_eq_true, decide_eq_true_eq] at hm
    simp only [Memory.write]
    split
    · simp only [Memory.wfFrom, Bool.and_eq_true, decide_eq_true_eq]; exact ⟨ha, by omega, hm.2⟩
    · split
      · subst_vars; simp only [Memory.wfFrom, Bool.and_eq_true, decide_eq_true_eq]; exact hm
      · simp only [Memory.wfFrom, Bool.and_eq_true, decide_eq_true_eq]; exact ⟨hm.1, ih (by omega) hm.2⟩

/-- A filled run of cells is canonical. -/
theorem Memory.wfFrom_filled (f : Nat → Byte) (n : Nat) {low a : Nat} (h : low ≤ a) : Memory.wfFrom low (Memory.filled f a n) = true := by
  induction n generalizing low a with
  | zero => rfl
  | succ n ih => simp [Memory.filled, Memory.wfFrom, h, ih]

/-- A filled run of cells lists exactly its offsets. -/
theorem Memory.offsets_filled (f : Nat → Byte) (a n : Nat) : (Memory.filled f a n).offsets = List.range' a n := by
  induction n generalizing a with
  | zero => rfl
  | succ n ih => simpa [Memory.filled, Memory.offsets, List.range'_succ] using ih (a + 1)

/-- A filled run of cells reads as its filling. -/
theorem Memory.read_filled (f : Nat → Byte) {a b n : Nat} (h : a ≤ b) (hn : b < a + n) : (Memory.filled f a n).read b = some (f b) := by
  induction n generalizing a with
  | zero => omega
  | succ n ih =>
    by_cases e : a = b
    · simp [Memory.filled, Memory.read, e]
    · simpa [Memory.filled, Memory.read, e] using ih (by omega) (by omega)

/-- An offset holds a byte exactly when it is listed. -/
theorem Memory.read_isSome_iff (m : Memory) (a : Nat) : (m.read a).isSome = true ↔ a ∈ m.offsets := by
  induction m with
  | nil => simp [Memory.read, Memory.unlisted, Memory.offsets]
  | cons c rest ih =>
    obtain ⟨k, w⟩ := c
    by_cases h : k = a
    · simp [Memory.read, Memory.offsets, h]
    · have h' : a ≠ k := fun e => h e.symm
      simpa [Memory.read, Memory.offsets, h, h'] using ih

theorem Memory.le_of_mem_offsets {m : Memory} {low a : Nat} (hm : Memory.wfFrom low m = true) (ha : a ∈ m.offsets) : low ≤ a := by
  induction m generalizing low with
  | nil => simp [Memory.offsets] at ha
  | cons c rest ih =>
    simp only [Memory.wfFrom, Bool.and_eq_true, decide_eq_true_eq] at hm
    rcases List.mem_cons.mp ha with rfl | ha
    · exact hm.1
    · have := ih hm.2 ha; omega

/-- A write to a listed offset of a canonical buffer lists the same offsets. -/
theorem Memory.offsets_write {m : Memory} {low a : Nat} (v : Byte) (hm : Memory.wfFrom low m = true) (ha : a ∈ m.offsets) :
    (m.write a v).offsets = m.offsets := by
  induction m generalizing low with
  | nil => simp [Memory.offsets] at ha
  | cons c rest ih =>
    obtain ⟨k, w⟩ := c
    simp only [Memory.wfFrom, Bool.and_eq_true, decide_eq_true_eq] at hm
    by_cases hk : a = k
    · simp [Memory.write, Memory.offsets, hk]
    · have hr : a ∈ Memory.offsets rest := (List.mem_cons.mp ha).resolve_left hk
      have hlt : ¬ a < k := by have := Memory.le_of_mem_offsets hm.2 hr; omega
      simpa [Memory.write, hk, hlt, Memory.offsets] using ih hm.2 hr

/-- A write keeps the canonical form. -/
theorem Memory.wf_write {m : Memory} (a : Nat) (v : Byte) (hm : m.wf = true) : (m.write a v).wf = true :=
  Memory.wfFrom_write v (Nat.zero_le a) hm

/-- Writing a sequence keeps the canonical form. -/
theorem Memory.wf_writeAll (vs : List Byte) {m : Memory} (a : Nat) (hm : m.wf = true) : (m.writeAll a vs).wf = true := by
  induction vs generalizing m a with
  | nil => exact hm
  | cons v vs ih => exact ih (a + 1) (Memory.wf_write a v hm)

/-- Writing a sequence inside a canonical buffer that lists every offset below `n` lists the same offsets. -/
theorem Memory.offsets_writeAll (vs : List Byte) {m : Memory} {a n : Nat} (hn : a + vs.length ≤ n) (hm : m.wf = true)
    (hall : m.offsets = List.range n) : (m.writeAll a vs).offsets = List.range n := by
  induction vs generalizing m a with
  | nil => exact hall
  | cons v vs ih =>
    simp only [List.length_cons] at hn
    refine ih (by omega) (Memory.wf_write a v hm) ?_
    rw [Memory.offsets_write v hm (by rw [hall]; simp; omega), hall]

/-- Offsets outside a written sequence read as before. -/
theorem Memory.read_writeAll_outside (vs : List Byte) (m : Memory) (a b : Nat) (h : b < a ∨ a + vs.length ≤ b) :
    (m.writeAll a vs).read b = m.read b := by
  induction vs generalizing m a with
  | nil => rfl
  | cons v vs ih =>
    simp only [List.length_cons] at h
    rw [Memory.writeAll, ih _ _ (by omega), Memory.read_write_other _ _ _ _ (by omega)]

/-- Offsets inside a written sequence read as the bytes written. -/
theorem Memory.holds_writeAll (vs : List Byte) (m : Memory) (a : Nat) : (m.writeAll a vs).Holds a vs := by
  induction vs generalizing m a with
  | nil => intro j hj; simp at hj
  | cons v vs ih =>
    intro j hj
    cases j with
    | zero => rw [Memory.writeAll, Memory.read_writeAll_outside _ _ _ _ (by omega)]; simp [Memory.read_write_same]
    | succ j => simpa [Memory.writeAll, Nat.add_assoc, Nat.add_comm 1] using ih (m.write a v) (a + 1) j (by simpa using hj)

theorem Memory.writeAll_append (vs ws : List Byte) (m : Memory) (a : Nat) :
    m.writeAll a (vs ++ ws) = (m.writeAll a vs).writeAll (a + vs.length) ws := by
  induction vs generalizing m a with
  | nil => rfl
  | cons v vs ih => simp [Memory.writeAll, ih, Nat.add_assoc, Nat.add_comm 1]

theorem Memory.Holds.tail {m : Memory} {a : Nat} {v : Byte} {vs : List Byte} (h : m.Holds a (v :: vs)) : m.Holds (a + 1) vs := by
  intro j hj
  have := h (j + 1) (by simpa using hj)
  simpa [Nat.add_assoc, Nat.add_comm 1] using this

theorem Memory.Holds.head {m : Memory} {a : Nat} {v : Byte} {vs : List Byte} (h : m.Holds a (v :: vs)) : m.read a = some v := by
  simpa using h 0 (by simp)

theorem Memory.Holds.take {m : Memory} {a : Nat} {vs : List Byte} (n : Nat) (h : m.Holds a vs) : m.Holds a (vs.take n) := by
  intro j hj
  simp only [List.length_take] at hj
  rw [h j (by omega), List.getElem?_take_of_lt (by omega)]

/-- A write beyond a held sequence leaves it held. -/
theorem Memory.Holds.writeAll_beyond {m : Memory} {a b : Nat} {vs : List Byte} (ws : List Byte) (h : m.Holds a vs)
    (hb : a + vs.length ≤ b) : (m.writeAll b ws).Holds a vs := by
  intro j hj
  rw [Memory.read_writeAll_outside _ _ _ _ (by omega), h j hj]

/-- Two adjacent held sequences are one. -/
theorem Memory.Holds.append {m : Memory} {a : Nat} {vs ws : List Byte} (h : m.Holds a vs) (h' : m.Holds (a + vs.length) ws) :
    m.Holds a (vs ++ ws) := by
  intro j hj
  by_cases hlt : j < vs.length
  · rw [h j hlt, List.getElem?_append_left hlt]
  · have := h' (j - vs.length) (by simp only [List.length_append] at hj; omega)
    rw [List.getElem?_append_right (by omega), ← this]
    congr 1; omega

end Sys2Proof.Machine
end

