-- ==== Sys2Proof/Laws/Ops.lean ====
section
/-! SUPPORT. One law per shared operation: what it answers, said once. -/

namespace Sys2Proof.Machine

@[simp] theorem ok_bind {α β : Type} (a : α) (f : α → Except Fault β) : (Except.ok a >>= f) = f a := rfl
@[simp] theorem error_bind {α β : Type} (e : Fault) (f : α → Except Fault β) : ((Except.error e : Except Fault α) >>= f) = .error e := rfl
@[simp] theorem outcome_ok (s : State) : outcome (.ok s) = .next s := rfl
@[simp] theorem outcome_error (f : Fault) : outcome (.error f) = .fault f := rfl

theorem memRead_of_listed {s : State} {a : Nat} {v : Byte} (ha : a < s.wlen) (h : s.wb.read a = some v) :
    memRead a s = .ok v := by
  simp [memRead, ha, h]

theorem memWrite_of_lt {s : State} {a : Nat} (v : Byte) (ha : a < s.wlen) :
    memWrite a v s = .ok (s.setWb (s.wb.write a v)) := by
  simp [memWrite, ha]

/-- Writing a sequence inside the buffer lists it, and does nothing else. -/
theorem writeBytes_eq (vs : List Byte) {s : State} {a : Nat} (h : a + vs.length ≤ s.wlen) :
    writeBytes a vs s = .ok (s.setWb (s.wb.writeAll a vs)) := by
  induction vs generalizing s a with
  | nil => rfl
  | cons v vs ih =>
    simp only [List.length_cons] at h
    rw [writeBytes, memWrite_of_lt v (by omega), ok_bind, ih (by simp; omega)]
    rfl

/-- Reading a held sequence inside the buffer gives it. -/
theorem readBytes_eq (vs : List Byte) {s : State} {a : Nat} (hold : s.wb.Holds a vs) (h : a + vs.length ≤ s.wlen) :
    readBytes vs.length a s = .ok vs := by
  induction vs generalizing a with
  | nil => rfl
  | cons v vs ih =>
    simp only [List.length_cons] at h
    rw [List.length_cons, readBytes, memRead_of_listed (by omega) hold.head, ok_bind, ih hold.tail (by omega)]
    rfl

/-- The per-byte steps over a held sequence fold the update over it (40 R93, R94). -/
theorem processBytes_eq (vs : List Byte) {s : State} (hold : s.wb.Holds s.idx vs) (h : s.idx + vs.length ≤ s.wlen) :
    processBytes vs.length s = .ok ((s.setCrc (vs.foldl crcStep s.crc)).setIdx (s.idx + vs.length)) := by
  induction vs generalizing s with
  | nil => rfl
  | cons v vs ih =>
    simp only [List.length_cons] at h
    rw [List.length_cons, processBytes, byteStep, memRead_of_listed (by omega) hold.head, ok_bind, ok_bind,
      ih (by simpa using hold.tail) (by simp; omega)]
    simp [State.setCrc, State.setIdx]; omega

/-- The checksum of the first bytes of the buffer, into `CRC` (40 R91, R93, R94). -/
theorem checksumFirst_eq (vs : List Byte) {s : State} (hold : s.wb.Holds 0 vs) (h : vs.length ≤ s.wlen) :
    checksumFirst vs.length s = .ok ((s.setCrc (crc16 vs)).setIdx vs.length) := by
  rw [checksumFirst, processBytes_eq vs (by simpa [startCrc] using hold) (by simpa [startCrc] using h)]
  simp [startCrc, crc16, State.setCrc, State.setIdx]

/-- Operand sampling fills the buffer with the request's data (10 R24). -/
theorem sampleBuffer_eq {data : List Byte} (s : State) (h : data.length ≤ Config.fbCap) :
    sampleBuffer data s = .ok ((s.setWlen data.length).setWb (s.wb.writeAll 0 data)) := by
  rw [sampleBuffer, if_pos h, writeBytes_eq data (by simp)]
  rfl

theorem sampleBuffer_overCapacity {data : List Byte} (s : State) (h : ¬ data.length ≤ Config.fbCap) :
    sampleBuffer data s = .error .overCapacity := by
  rw [sampleBuffer, if_neg h]

/-- The response's buffer is what the working buffer holds. -/
theorem readBuffer_eq {f : List Byte} {s : State} (hold : s.wb.Holds 0 f) (hlen : s.wlen = f.length) :
    readBuffer s = .ok f := by
  rw [readBuffer, hlen, readBytes_eq f hold (by omega)]

theorem returnBuffer_eq {f : List Byte} {s : State} (hold : s.wb.Holds 0 f) (hlen : s.wlen = f.length) :
    returnBuffer s = .ok (s.answer (bufferResponse .ok f)) := by
  rw [returnBuffer, readBuffer_eq hold hlen, ok_bind]
  rfl

theorem payload_length (f : List Byte) : (payload f).length = f.length - 2 := by
  simp [payload]

/-- `APPEND` on a buffer of which only the payload need be written (40 R98, R100 (c)). -/
theorem appendChecksum_eq {p : List Byte} {s : State} (hold : s.wb.Holds 0 p) (hlen : s.wlen = p.length + 2) :
    appendChecksum s = .ok (((s.setCrc (crc16 p)).setIdx p.length).setWb (s.wb.writeAll p.length (checksumBytes p))) := by
  have h2 : s.wlen - 2 = p.length := by omega
  have h1 : s.wlen - 1 = p.length + 1 := by omega
  simp only [appendChecksum, h2]
  rw [checksumFirst_eq p hold (by omega), ok_bind, memWrite_of_lt _ (by simp; omega), ok_bind]
  simp only [State.setWb_wlen, State.setIdx_wlen, State.setCrc_wlen, h1, h2]
  rw [memWrite_of_lt _ (by simp; omega)]
  rfl

/-- After `APPEND` the buffer holds the payload and its checksum. -/
theorem holds_after_append {p : List Byte} {m : Memory} (hold : m.Holds 0 p) :
    (m.writeAll p.length (checksumBytes p)).Holds 0 (p ++ checksumBytes p) :=
  (hold.writeAll_beyond _ (by omega)).append (by simpa using Memory.holds_writeAll (checksumBytes p) m p.length)

theorem hi_joinBytes (h l : Byte) : hi (joinBytes h l) = h := by
  apply BitVec.eq_of_getLsbD_eq
  intro i hlt
  have h8 : ¬ 8 + i < 8 := by omega
  have h16 : 8 + i < 16 := by omega
  simp [hi, joinBytes, hlt, h8, h16]

theorem lo_joinBytes (h l : Byte) : lo (joinBytes h l) = l := by
  apply BitVec.eq_of_getLsbD_eq
  intro i hlt
  have h16 : i < 16 := by omega
  simp [lo, joinBytes, hlt, h16]

theorem joinBytes_hi_lo (w : Word) : joinBytes (hi w) (lo w) = w := by
  apply BitVec.eq_of_getLsbD_eq
  intro i hlt
  by_cases h8 : i < 8
  · simp [hi, lo, joinBytes, hlt, h8]
  · have hs : 8 + (i - 8) = i := by omega
    have hs' : i - 8 < 8 := by omega
    simp [hi, lo, joinBytes, hlt, h8, hs, hs']

theorem joinBytes_inj {h l h' l' : Byte} : joinBytes h l = joinBytes h' l' ↔ h = h' ∧ l = l' := by
  refine ⟨fun e => ?_, by rintro ⟨rfl, rfl⟩; rfl⟩
  exact ⟨by rw [← hi_joinBytes h l, e, hi_joinBytes], by rw [← lo_joinBytes h l, e, lo_joinBytes]⟩

end Sys2Proof.Machine
end

