-- ==== Sys2Proof/Laws/PerInstr.lean ====
section
/-! SUPPORT. The family `TableRow`: the encoding of each well-formed instruction has its opcode-table row's length and fixed bits. -/

-- Many kernel evaluations at once exceed the memory limit, so this file elaborates its theorems one after another.
set_option Elab.async false

namespace Sys2Proof.Laws.TableRow

/-- The 24-bit request header, header byte 0 least significant (30 R60). -/
def headerNumber : List Byte → Nat
  | b :: a :: l :: _ => b.toNat + 256 * a.toNat + 65536 * l.toNat
  | _ => 0

/-- A request row: the header under the row's mask is the row's match, and `len` counts the data (opcode_table.json, 30 R60). -/
def requestRow (mask pattern : Nat) (dataLength : Nat) (bytes : List Byte) : Prop :=
  headerNumber bytes &&& mask = pattern ∧ bytes.length = 3 + dataLength ∧ headerNumber bytes / 65536 = dataLength

/-- The row's fixed bits and length, per row of opcode_table.json. -/
def rowHolds (bytes : List Byte) : Instr → Prop
  | .compute data => requestRow 0x0000F7 0x000000 data.length bytes
  | .append data => requestRow 0x0000F7 0x000001 data.length bytes
  | .verify data => requestRow 0x0000F7 0x000002 data.length bytes
  | .encRead _ => requestRow 0x0000F7 0x000003 0 bytes
  | .encReset _ => requestRow 0x0000F7 0x000004 0 bytes
  | .validateReadRsp data => requestRow 0x0000FF 0x000005 data.length bytes
  | .validateResetAck data => requestRow 0x0000FF 0x00000D data.length bytes
  | .readCommandFrame _ _ _ => bytes.length = 8 ∧ bytes[1]? = some 0x04 ∧ (bytes.drop 2).take 4 = [0x00, 0x00, 0x00, 0x0A]
  | .resetCommandFrame _ _ _ => bytes.length = 4 ∧ bytes[1]? = some 0x42
  | .readResponseFrame _ _ _ _ _ _ => bytes.length = 25
  | .resetAckFrame _ _ _ _ _ => bytes.length = 5

/-- The instruction's encoding has its row's fixed bits and length. -/
def Statement (i : Instr) : Prop := i.wellFormed = true → rowHolds (encode i) i

theorem requestRow_packBuffer (op : BitVec 3) (kind : BitVec 1) (mask pattern : Nat) (data : List Byte)
    (hfit : data.length ≤ Config.fbCap)
    (hrow : ∀ l : BitVec 8, ((headerByte op kind 0).toNat + 65536 * l.toNat) &&& mask = pattern) :
    requestRow mask pattern data.length (packBuffer op kind data) := by
  have hl : (BitVec.ofNat 8 data.length).toNat = data.length := by simp [Config.fbCap] at hfit ⊢; omega
  have hb : (headerByte op kind 0).toNat < 256 := (headerByte op kind 0).isLt
  refine ⟨?_, ?_, ?_⟩
  · simpa [packBuffer, packRequest, headerNumber] using hrow (BitVec.ofNat 8 data.length)
  · simp [packBuffer, packRequest]; omega
  · simp only [packBuffer, packRequest, headerNumber, hl]; simp; omega

theorem wordsToBytes_length (ws : List Word) : (wordsToBytes ws).length = 2 * ws.length := by
  induction ws with
  | nil => rfl
  | cons w ws ih => simp only [wordsToBytes, List.length_cons, ih]; omega

theorem compute (data : List Byte) : Statement (.compute data) := fun h =>
  requestRow_packBuffer 0 0 _ _ data (by simpa [Instr.wellFormed, bufferFits] using h) (by decide +kernel)

theorem append (data : List Byte) : Statement (.append data) := fun h =>
  requestRow_packBuffer 1 0 _ _ data (by simpa [Instr.wellFormed, bufferFits] using h) (by decide +kernel)

theorem verify (data : List Byte) : Statement (.verify data) := fun h =>
  requestRow_packBuffer 2 0 _ _ data (by simpa [Instr.wellFormed, bufferFits] using h) (by decide +kernel)

theorem encRead (addr : Byte) : Statement (.encRead addr) := fun _ => by
  revert addr; unfold rowHolds requestRow; decide +kernel

theorem encReset (addr : Byte) : Statement (.encReset addr) := fun _ => by
  revert addr; unfold rowHolds requestRow; decide +kernel

theorem validateReadRsp (data : List Byte) : Statement (.validateReadRsp data) := fun h =>
  requestRow_packBuffer 5 0 _ _ data (by simpa [Instr.wellFormed, bufferFits] using h) (by decide +kernel)

theorem validateResetAck (data : List Byte) : Statement (.validateResetAck data) := fun h =>
  requestRow_packBuffer 5 1 _ _ data (by simpa [Instr.wellFormed, bufferFits] using h) (by decide +kernel)

theorem readCommandFrame (addr crcLo crcHi : Byte) : Statement (.readCommandFrame addr crcLo crcHi) := fun _ => ⟨rfl, rfl, rfl⟩

theorem resetCommandFrame (addr crcLo crcHi : Byte) : Statement (.resetCommandFrame addr crcLo crcHi) := fun _ => ⟨rfl, rfl⟩

theorem readResponseFrame (addr fc count : Byte) (regs : List Word) (crcLo crcHi : Byte) :
    Statement (.readResponseFrame addr fc count regs crcLo crcHi) := fun h => by
  have h10 : regs.length = 10 := by simpa [Instr.wellFormed] using h
  simp [rowHolds, encode, rsp25Bytes, wordsToBytes_length, h10]

theorem resetAckFrame (b0 b1 b2 crcLo crcHi : Byte) : Statement (.resetAckFrame b0 b1 b2 crcLo crcHi) := fun _ => rfl

end Sys2Proof.Laws.TableRow
end

