-- ==== Sys2Proof/Laws/Units.lean ====
section
/-! SUPPORT. The laws of the units' shared operations: `VERIFY` on the working buffer, the encoder, the validator's judgements. -/

namespace Sys2Proof.Machine

/-- The checksum registers after a `VERIFY` or a judgement that computed the checksum of `f`'s payload. -/
def State.afterChecksum (s : State) (f : List Byte) : State := (s.setCrc (crc16 (payload f))).setIdx (payload f).length

theorem eq_payload_append {f : List Byte} (h : 2 ≤ f.length) :
    ∃ l hh, f = payload f ++ [l, hh] ∧ f[f.length - 2]? = some l ∧ f[f.length - 1]? = some hh ∧
      f.drop (f.length - 2) = [l, hh] := by
  have hd : (f.drop (f.length - 2)).length = 2 := by simp; omega
  match hm : f.drop (f.length - 2), hd with
  | [l, hh], _ =>
    have hsplit : f = payload f ++ [l, hh] := by rw [← hm, payload, List.take_append_drop]
    have e0 : (f.drop (f.length - 2))[0]? = some l := by rw [hm]; rfl
    have e1 : (f.drop (f.length - 2))[1]? = some hh := by rw [hm]; rfl
    rw [List.getElem?_drop] at e0 e1
    refine ⟨l, hh, hsplit, by simpa using e0, ?_, rfl⟩
    rw [← e1]; congr 1; omega

/-- `VERIFY` on a held buffer says whether it is checksummed (40 R101, R102). -/
theorem verifyChecksum_eq {f : List Byte} {s : State} (hold : s.wb.Holds 0 f) (hlen : s.wlen = f.length) :
    verifyChecksum s = .ok (checksummed f, if f.length ≤ 2 then s else s.afterChecksum f) := by
  by_cases h2 : f.length ≤ 2
  · have : ¬ 2 < f.length := by omega
    simp [verifyChecksum, hlen, h2, checksummed, this]
  · obtain ⟨l, hh, -, hl, hhi, hdrop⟩ := eq_payload_append (f := f) (by omega)
    have hp : f.length - 2 = (payload f).length := by rw [payload_length]
    have holdp : s.wb.Holds 0 (payload f) := hold.take _
    have rl : s.wb.read (f.length - 2) = some l := by
      have := hold (f.length - 2) (by omega); rwa [Nat.zero_add, hl] at this
    have rh : s.wb.read (f.length - 1) = some hh := by
      have := hold (f.length - 1) (by omega); rwa [Nat.zero_add, hhi] at this
    rw [verifyChecksum, if_neg (by omega), if_neg h2, hlen, hp, checksumFirst_eq _ holdp (by omega), ok_bind]
    simp only [State.setIdx_wlen, State.setCrc_wlen, hlen]
    rw [memRead_of_listed (by simp; omega) (by simpa using rh), ok_bind, ← hp,
      memRead_of_listed (by simp; omega) (by simpa using rl), ok_bind]
    congr 2
    · rw [checksummed, hdrop, checksumBytes, decide_eq_true (by omega : 2 < f.length), Bool.true_and]
      congr 1
      rw [← joinBytes_hi_lo (crc16 (payload f))]
      simp [joinBytes_inj, hi_joinBytes, lo_joinBytes, and_comm, eq_comm]
    · rw [State.afterChecksum, payload_length]

/-- The fixed-length judgement, as a function of the buffer (42 R137). -/
def fixedVerdict (n : Nat) (f : List Byte) : Status :=
  if f.length < n then .truncatedFrame else if checksummed f then .ok else .checksumMismatch

theorem judgeFixed_eq {f : List Byte} {s : State} {n : Nat} (hn : 2 < n) (hold : s.wb.Holds 0 f) (hlen : s.wlen = f.length) :
    judgeFixed n s = .ok (fixedVerdict n f, if f.length < n then s else s.afterChecksum f) := by
  by_cases h : f.length < n
  · simp [judgeFixed, fixedVerdict, hlen, h]
  · rw [judgeFixed, hlen, if_neg h, verifyChecksum_eq hold hlen, ok_bind, if_neg (by omega : ¬ f.length ≤ 2)]
    simp [fixedVerdict, h]

/-- `RESET_ACK_JUDGE`, as a function of the buffer (42 R140). -/
def resetAckVerdict (rule : JudgeRule) (f : List Byte) : Status :=
  match rule with
  | .openParameter => Config.openJudge f
  | .asSource => judgeAsSource f.length
  | .strict => fixedVerdict Config.resetAckLen f

theorem judgeResetAck_eq {f : List Byte} {s : State} (hold : s.wb.Holds 0 f) (hlen : s.wlen = f.length) :
    judgeResetAck s = .ok (resetAckVerdict s.params.resetAckJudge f,
      if s.params.resetAckJudge = .strict ∧ Config.resetAckLen ≤ f.length then s.afterChecksum f else s) := by
  rw [judgeResetAck]
  cases hr : s.params.resetAckJudge with
  | openParameter => simp [readBuffer_eq hold hlen, resetAckVerdict]
  | asSource => simp [resetAckVerdict, hlen]
  | strict =>
    simp only [resetAckVerdict, judgeFixed_eq (by decide : 2 < Config.resetAckLen) hold hlen, true_and]
    by_cases h : f.length < Config.resetAckLen
    · simp [h]
    · simp [h, Nat.le_of_not_lt h]

/-- A sampled buffer is held, and its length is the buffer's length. -/
theorem holds_sampled (data : List Byte) (s : State) :
    ((s.setWlen data.length).setWb (s.wb.writeAll 0 data)).wb.Holds 0 data := Memory.holds_writeAll data s.wb 0

/-- The encoder on an accepted address, when the bytes laid down begin with the payload `p` of a frame of `p.length + 2` bytes
(41 R121, R125). -/
theorem encodeFrame_eq {addr : Byte} {p rest : List Byte} {s : State} (hok : addrOk s.params addr = true)
    (hrest : rest.length ≤ 2) :
    encodeFrame (p.length + 2) addr (p ++ rest) s =
      .ok (((((s.setWlen (p.length + 2)).setCrc (crc16 p)).setIdx p.length).setWb
        ((s.wb.writeAll 0 (p ++ rest)).writeAll p.length (checksumBytes p))).answer (bufferResponse .ok (p ++ checksumBytes p))) := by
  have hold : (s.wb.writeAll 0 (p ++ rest)).Holds 0 p := by
    rw [Memory.writeAll_append]
    exact (Memory.holds_writeAll p s.wb 0).writeAll_beyond _ (by omega)
  rw [encodeFrame, if_pos hok, writeBytes_eq _ (by simp; omega), ok_bind,
    appendChecksum_eq (p := p) (by simpa using hold) (by simp), ok_bind,
    returnBuffer_eq (f := p ++ checksumBytes p) (by simpa using holds_after_append hold) (by simp [checksumBytes])]
  rfl

/-- The encoder on a refused address (41 R123). -/
theorem encodeFrame_refused {n : Nat} {addr : Byte} {bytes : List Byte} {s : State} (h : addrOk s.params addr = false) :
    encodeFrame n addr bytes s = .ok (s.answer (bufferResponse .invalidInput [])) := by
  rw [encodeFrame, if_neg (by simp [h])]
  rfl

end Sys2Proof.Machine
end

