-- ==== Sys2Proof/Tests/Slice0.lean ====
section
/-! SUPPORT. Tests against the vectors of spec/95_test_vectors.md and words written out from 30, the well-formedness smoke test, and the
witnesses of the statements' hypotheses. -/

-- Many kernel evaluations at once exceed the memory limit, so this file elaborates its theorems one after another.
set_option Elab.async false

namespace Sys2Proof.Tests
open Sys2Proof.Machine

/-- The packed answer of one step to bytes presented to an idle block with these parameters. -/
def packedAnswer (ps : Params) (f : Format) (bytes : List Byte) : Option (List Byte) :=
  (answerOf (step { State.idle ps 0 with pending := some { format := f, bytes := bytes } })).map packResponse

/-- The 25-byte buffer S01 (95). -/
def s01 : List Byte :=
  [0x01, 0x04, 0x14, 0x08, 0xCA, 0x00, 0x01, 0x00, 0x00, 0x00, 0x64, 0x00, 0x00, 0x00, 0x00, 0x27, 0x10, 0x01, 0x38, 0x00, 0x64, 0x00, 0x00, 0xBE, 0x40]

/-! Well-formedness: an ill-formed term for each check -/

theorem test_wf_refuses_long_compute : (Instr.compute (List.replicate 256 0)).wellFormed = false := by decide +kernel
theorem test_wf_refuses_long_append : (Instr.append (List.replicate 256 0)).wellFormed = false := by decide +kernel
theorem test_wf_refuses_long_verify : (Instr.verify (List.replicate 256 0)).wellFormed = false := by decide +kernel
theorem test_wf_refuses_long_readRsp : (Instr.validateReadRsp (List.replicate 256 0)).wellFormed = false := by decide +kernel
theorem test_wf_refuses_long_resetAck : (Instr.validateResetAck (List.replicate 256 0)).wellFormed = false := by decide +kernel
theorem test_wf_refuses_nine_registers :
    (Instr.readResponseFrame 1 4 0x14 (List.replicate 9 0) 0 0).wellFormed = false := by decide +kernel
theorem test_wf_accepts_full_buffer : (Instr.append (List.replicate 255 0)).wellFormed = true := by decide +kernel

/-! Words written out from the encodings -/

/-- 30 R60, R61: rsv 0000, kind 0, op 000, addr, len 2, two data bytes. -/
theorem test_decode_compute : decode .req [0b00000000, 0x00, 0x02, 0xAB, 0xCD] = .instr (.compute [0xAB, 0xCD]) := by decide +kernel

/-- 30 R60, R61: op 001. -/
theorem test_decode_append : decode .req [0b00000001, 0x00, 0x03, 0x41, 0x00, 0x00] = .instr (.append [0x41, 0x00, 0x00]) := by decide +kernel

/-- 30 R60, R61: op 010. -/
theorem test_decode_verify : decode .req [0b00000010, 0x00, 0x01, 0x7F] = .instr (.verify [0x7F]) := by decide +kernel

/-- 30 R60, R61: op 011, kind 1 ignored. -/
theorem test_decode_encRead : decode .req [0b00001011, 0xF8, 0x00] = .instr (.encRead 0xF8) := by decide +kernel

/-- 30 R60, R61: op 100. -/
theorem test_decode_encReset : decode .req [0b00000100, 0x01, 0x00] = .instr (.encReset 0x01) := by decide +kernel

/-- 30 R60, R61, R62: op 101, kind 0. -/
theorem test_decode_validateReadRsp : decode .req [0b00000101, 0x00, 0x01, 0x10] = .instr (.validateReadRsp [0x10]) := by decide +kernel

/-- 30 R60, R61, R62: op 101, kind 1. -/
theorem test_decode_validateResetAck : decode .req [0b00001101, 0x00, 0x01, 0x10] = .instr (.validateResetAck [0x10]) := by decide +kernel

/-- 30 R78. -/
theorem test_decode_op_seven_malformed : decode .req [0b00000111, 0x00, 0x00] = .malformed := by decide +kernel

/-- 30 R60: len says 2, one byte follows. -/
theorem test_decode_missing_data : decode .req [0b00000000, 0x00, 0x02, 0xAB] = .rejected .missingData := by decide +kernel

/-- 30 R66: aaaaaaaa 00000100 0 0 0 00001010 l h. -/
theorem test_decode_readCommandFrame : decode .cmd8 [0x01, 0b00000100, 0x00, 0x00, 0x00, 0b00001010, 0x70, 0x0D] = .instr (.readCommandFrame 0x01 0x70 0x0D) := by decide +kernel

/-- 30 R67: aaaaaaaa 01000010 l h. -/
theorem test_decode_resetCommandFrame : decode .cmd4 [0x01, 0b01000010, 0x80, 0x11] = .instr (.resetCommandFrame 0x01 0x80 0x11) := by decide +kernel

/-- 30 R77: 0x03 is no command frame. -/
theorem test_decode_never_emitted_code : decode .cmd4 [0x01, 0x03, 0x80, 0x11] = .rejected .frameFields := by decide +kernel

/-- 30 R68: registers big-endian, from the source's decode scenario. -/
theorem test_decode_readResponseFrame : decode .rsp25 s01 = .instr (.readResponseFrame 0x01 0x04 0x14 [0x08CA, 0x0001, 0x0000, 0x0064, 0x0000, 0x0000, 0x2710, 0x0138, 0x0064, 0x0000] 0xBE 0x40) := by decide +kernel

/-- 30 R69. -/
theorem test_decode_resetAckFrame : decode .rsp5 [0x01, 0x42, 0x00, 0x10, 0xA0] = .instr (.resetAckFrame 0x01 0x42 0x00 0x10 0xA0) := by decide +kernel

/-- 98: the table numbers CMD4 as one number, first byte most significant. -/
theorem test_tableWord_cmd4 : decodeTableWord 32 0x01428011 = some (.resetCommandFrame 0x01 0x80 0x11) := by decide +kernel
/-- 95 L2-RQ: header 0x05000D is VALIDATE RESET_ACK with len 5; its data bytes are zeros. -/
theorem test_tableWord_validateResetAck : decodeTableWord 24 0x05000D = some (.validateResetAck [0, 0, 0, 0, 0]) := by decide +kernel
/-- 95 L2-RQ: header 0x000010 matches no row. -/
theorem test_tableWord_rsv : decodeTableWord 24 0x000010 = none := by decide +kernel

/-! The CRC table against the spec's listing (20 R44) -/

def tableListing0 : List Word :=
  [0x0000, 0xC0C1, 0xC181, 0x0140, 0xC301, 0x03C0, 0x0280, 0xC241,
   0xC601, 0x06C0, 0x0780, 0xC741, 0x0500, 0xC5C1, 0xC481, 0x0440,
   0xCC01, 0x0CC0, 0x0D80, 0xCD41, 0x0F00, 0xCFC1, 0xCE81, 0x0E40,
   0x0A00, 0xCAC1, 0xCB81, 0x0B40, 0xC901, 0x09C0, 0x0880, 0xC841,
   0xD801, 0x18C0, 0x1980, 0xD941, 0x1B00, 0xDBC1, 0xDA81, 0x1A40,
   0x1E00, 0xDEC1, 0xDF81, 0x1F40, 0xDD01, 0x1DC0, 0x1C80, 0xDC41,
   0x1400, 0xD4C1, 0xD581, 0x1540, 0xD701, 0x17C0, 0x1680, 0xD641,
   0xD201, 0x12C0, 0x1380, 0xD341, 0x1100, 0xD1C1, 0xD081, 0x1040]

def tableListing1 : List Word :=
  [0xF001, 0x30C0, 0x3180, 0xF141, 0x3300, 0xF3C1, 0xF281, 0x3240,
   0x3600, 0xF6C1, 0xF781, 0x3740, 0xF501, 0x35C0, 0x3480, 0xF441,
   0x3C00, 0xFCC1, 0xFD81, 0x3D40, 0xFF01, 0x3FC0, 0x3E80, 0xFE41,
   0xFA01, 0x3AC0, 0x3B80, 0xFB41, 0x3900, 0xF9C1, 0xF881, 0x3840,
   0x2800, 0xE8C1, 0xE981, 0x2940, 0xEB01, 0x2BC0, 0x2A80, 0xEA41,
   0xEE01, 0x2EC0, 0x2F80, 0xEF41, 0x2D00, 0xEDC1, 0xEC81, 0x2C40,
   0xE401, 0x24C0, 0x2580, 0xE541, 0x2700, 0xE7C1, 0xE681, 0x2640,
   0x2200, 0xE2C1, 0xE381, 0x2340, 0xE101, 0x21C0, 0x2080, 0xE041]

def tableListing2 : List Word :=
  [0xA001, 0x60C0, 0x6180, 0xA141, 0x6300, 0xA3C1, 0xA281, 0x6240,
   0x6600, 0xA6C1, 0xA781, 0x6740, 0xA501, 0x65C0, 0x6480, 0xA441,
   0x6C00, 0xACC1, 0xAD81, 0x6D40, 0xAF01, 0x6FC0, 0x6E80, 0xAE41,
   0xAA01, 0x6AC0, 0x6B80, 0xAB41, 0x6900, 0xA9C1, 0xA881, 0x6840,
   0x7800, 0xB8C1, 0xB981, 0x7940, 0xBB01, 0x7BC0, 0x7A80, 0xBA41,
   0xBE01, 0x7EC0, 0x7F80, 0xBF41, 0x7D00, 0xBDC1, 0xBC81, 0x7C40,
   0xB401, 0x74C0, 0x7580, 0xB541, 0x7700, 0xB7C1, 0xB681, 0x7640,
   0x7200, 0xB2C1, 0xB381, 0x7340, 0xB101, 0x71C0, 0x7080, 0xB041]

def tableListing3 : List Word :=
  [0x5000, 0x90C1, 0x9181, 0x5140, 0x9301, 0x53C0, 0x5280, 0x9241,
   0x9601, 0x56C0, 0x5780, 0x9741, 0x5500, 0x95C1, 0x9481, 0x5440,
   0x9C01, 0x5CC0, 0x5D80, 0x9D41, 0x5F00, 0x9FC1, 0x9E81, 0x5E40,
   0x5A00, 0x9AC1, 0x9B81, 0x5B40, 0x9901, 0x59C0, 0x5880, 0x9841,
   0x8801, 0x48C0, 0x4980, 0x8941, 0x4B00, 0x8BC1, 0x8A81, 0x4A40,
   0x4E00, 0x8EC1, 0x8F81, 0x4F40, 0x8D01, 0x4DC0, 0x4C80, 0x8C41,
   0x4400, 0x84C1, 0x8581, 0x4540, 0x8701, 0x47C0, 0x4680, 0x8641,
   0x8201, 0x42C0, 0x4380, 0x8341, 0x4100, 0x81C1, 0x8081, 0x4040]

theorem test_table_listing_low :
    (List.range 128).map (fun i => tabRead (BitVec.ofNat 8 i)) = tableListing0 ++ tableListing1 := by decide +kernel
theorem test_table_listing_high :
    (List.range 128).map (fun i => tabRead (BitVec.ofNat 8 (128 + i))) = tableListing2 ++ tableListing3 := by decide +kernel
/-- 95 L2-CE-12: the published check value. -/
theorem test_crc16_check_value : crc16 [0x31, 0x32, 0x33, 0x34, 0x35, 0x36, 0x37, 0x38, 0x39] = 0x4B37 := by decide +kernel
/-- 95 L2-CE-21: the eight bit-serial steps of the first byte. -/
theorem test_bit_serial_example : step8 0xFFFE = 0x807E ∧ step1 0xFFFE = 0x7FFF ∧ step1 0x7FFF = 0x9FFE := by decide +kernel

/-! One step each, on the packed vectors -/

/-- 95 L2-CE-11, with kind and addr set: ignored. -/
theorem test_compute_read_payload : packedAnswer Config.defaultParams .req ([0x08, 0x5A, 0x06, 0x01, 0x04, 0x00, 0x00, 0x00, 0x0A]) = some [0x00, 0x70, 0x0D, 0x00] := by decide +kernel

/-- 95 L2-CE-1. -/
theorem test_compute_empty : packedAnswer Config.defaultParams .req ([0x00, 0x00, 0x00]) = some [0x00, 0xFF, 0xFF, 0x00] := by decide +kernel

/-- 95 L2-CE-31. -/
theorem test_append_overwrites_old_checksum : packedAnswer Config.defaultParams .req ([0x01, 0x00, 0x03, 0x41, 0xAA, 0xBB]) = some [0x00, 0x00, 0x00, 0x03, 0x41, 0x7F, 0x70] := by decide +kernel

/-- 95 L2-CE-40. -/
theorem test_append_short_unchanged : packedAnswer Config.defaultParams .req ([0x01, 0x00, 0x02, 0xAA, 0xBB]) = some [0x03, 0x00, 0x00, 0x02, 0xAA, 0xBB] := by decide +kernel

/-- 95 L2-CE-51. -/
theorem test_verify_swapped_checksum : packedAnswer Config.defaultParams .req ([0x02, 0x00, 0x03, 0x41, 0x70, 0x7F]) = some [0x00, 0x00, 0x00, 0x00] := by decide +kernel

/-- 95 L2-CE-60. -/
theorem test_verify_reset_command : packedAnswer Config.defaultParams .req ([0x02, 0x00, 0x04, 0x01, 0x42, 0x80, 0x11]) = some [0x04, 0x00, 0x00, 0x00] := by decide +kernel

/-- 95 L2-FE-9. -/
theorem test_encRead_ignores_unused_fields : packedAnswer Config.defaultParams .req ([0x0B, 0x01, 0x03, 0xDE, 0xAD, 0x00]) = some [0x00, 0x00, 0x00, 0x08, 0x01, 0x04, 0x00, 0x00, 0x00, 0x0A, 0x70, 0x0D] := by decide +kernel

/-- 95 L2-FE-10. -/
theorem test_encRead_refused_address : packedAnswer { Config.defaultParams with refusedAddrs := [0x00] } .req ([0x03, 0x00, 0x00]) = some [0x03, 0x00, 0x00, 0x00] := by decide +kernel

/-- 95 L2-FE-8. -/
theorem test_encReset_highest_address : packedAnswer Config.defaultParams .req ([0x04, 0xFF, 0x00]) = some [0x00, 0x00, 0x00, 0x04, 0xFF, 0x42, 0xC0, 0x71] := by decide +kernel

/-- 95 L2-FE-10. -/
theorem test_encReset_refused_address : packedAnswer { Config.defaultParams with refusedAddrs := [0xF8] } .req ([0x04, 0xF8, 0x00]) = some [0x03, 0x00, 0x00, 0x00] := by decide +kernel

/-- 95 L2-FV-1. -/
theorem test_validateReadRsp_good : packedAnswer Config.defaultParams .req ([0x05, 0x00, 0x19] ++ s01) = some [0x04, 0x00, 0x00, 0x00] := by decide +kernel

/-- 95 L2-FV-3. -/
theorem test_validateReadRsp_one_short : packedAnswer Config.defaultParams .req ([0x05, 0x00, 0x18] ++ s01.take 24) = some [0x01, 0x00, 0x00, 0x00] := by decide +kernel

/-- 95 L2-FV-17. -/
theorem test_validateResetAck_asSource : packedAnswer { Config.defaultParams with resetAckJudge := .asSource } .req ([0x0D, 0x00, 0x05, 0x01, 0x42, 0x00, 0x10, 0xA0]) = some [0x02, 0x00, 0x00, 0x00] := by decide +kernel

/-- 95 L2-FV-17. -/
theorem test_validateResetAck_strict : packedAnswer { Config.defaultParams with resetAckJudge := .strict } .req ([0x0D, 0x00, 0x05, 0x01, 0x42, 0x00, 0x10, 0xA0]) = some [0x04, 0x00, 0x00, 0x00] := by decide +kernel

/-- 95 L2-FE-7, laid down with other checksum bytes (41 R121 corner cases). -/
theorem test_readCommandFrame_rebuilt : packedAnswer Config.defaultParams .cmd8 ([0xF8, 0x04, 0x00, 0x00, 0x00, 0x0A, 0xEE, 0xEE]) = some [0x00, 0x00, 0x00, 0x08, 0xF8, 0x04, 0x00, 0x00, 0x00, 0x0A, 0x64, 0x64] := by decide +kernel

/-- 95 L2-FE-3. -/
theorem test_resetCommandFrame_rebuilt : packedAnswer Config.defaultParams .cmd4 ([0x02, 0x42, 0x00, 0x00]) = some [0x00, 0x00, 0x00, 0x04, 0x02, 0x42, 0x80, 0xE1] := by decide +kernel

/-- 95 L2-FV-11. -/
theorem test_readResponseFrame_other_function_code : packedAnswer Config.defaultParams .rsp25 ([0x01, 0x84, 0x02] ++ List.replicate 20 0x00 ++ [0x69, 0x1E]) = some [0x04, 0x00, 0x00, 0x00] := by decide +kernel

/-- 95 L2-FV-5. -/
theorem test_readResponseFrame_bad_checksum : packedAnswer Config.defaultParams .rsp25 (s01.take 24 ++ [0x41]) = some [0x02, 0x00, 0x00, 0x00] := by decide +kernel

/-- 95 L2-FV-18. -/
theorem test_resetAckFrame_strict_bad_checksum : packedAnswer { Config.defaultParams with resetAckJudge := .strict } .rsp5 ([0x01, 0x42, 0x00, 0x10, 0xA1]) = some [0x02, 0x00, 0x00, 0x00] := by decide +kernel

/-- 95 L2-FV-20. -/
theorem test_resetAckFrame_asSource_rejects_five : packedAnswer { Config.defaultParams with resetAckJudge := .asSource } .rsp5 ([0x00, 0x00, 0x00, 0x71, 0xC0]) = some [0x02, 0x00, 0x00, 0x00] := by decide +kernel

/-- 95 L2-RQ-2. -/
theorem test_malformed_reserved_op : packedAnswer Config.defaultParams .req ([0x07, 0x01, 0x02, 0xAA, 0xBB]) = some [0x03, 0x00, 0x00, 0x00] := by decide +kernel

/-- 95 L2-RQ-3. -/
theorem test_malformed_rsv : packedAnswer Config.defaultParams .req ([0x10, 0x00, 0x00]) = some [0x03, 0x00, 0x00, 0x00] := by decide +kernel

/-- 45 R160 on the source's decode scenario: 225.0 V, 0.001 A, 10.0 W, 655360.0, 31.2 Hz, 1.00, flags 0 (95 L1-3). -/
theorem test_decodeMeasurement_scenario : decodeMeasurement s01 =
    some { voltage := 225, current := 1 / 1000, activePower := 10, energy := 655360, frequency := 312 / 10, powerFactor := 1,
           alarm := 0x0000 } := by decide +kernel

/-- 45 R161: a 25-byte buffer the validator rejects (95 L2-FV-5) is not decoded. -/
theorem test_decodeMeasurement_refuses_rejected : decodeMeasurement (s01.take 24 ++ [0x41]) = none := by decide +kernel

/-- 10 R31: the last cell of WB holds a byte after reset, and 20 R40: there is no cell beyond. -/
theorem test_reset_last_cell : (State.reset.wb.read 254).isSome = true ∧ State.reset.wb.read 255 = none := by decide +kernel

/-- 45 R151: an empty attempt stops the reader early. -/
theorem test_readUpTo_stops_at_silence : readUpTo 25 [[0x01, 0x02], [0x03], [], [0x04]] = [0x01, 0x02, 0x03] := by decide +kernel

/-! Witnesses: concrete states and operands that meet each statement's hypotheses -/

/-- The idle block with these parameters and this pending request. -/
def asked (ps : Params) (f : Format) (bytes : List Byte) : State :=
  { State.idle ps 0 with pending := some { format := f, bytes := bytes } }

def strictParams : Params := { refusedAddrs := [0x00], resetAckJudge := .strict }
def asSourceParams : Params := { refusedAddrs := [], resetAckJudge := .asSource }

/-- A state no run need reach, written out: bytes 1 and 0xFF at offsets 0 and 7 of the buffer, zeros elsewhere. -/
def someState : State :=
  { params := strictParams, pending := some { format := .req, bytes := [0x03, 0x01, 0x00] }, response := none, crc := 0x1234, idx := 3,
    wlen := 5, wb := ((Memory.filled (fun _ => 0) 0 255).write 0 0x01).write 7 0xFF, draws := 9 }

theorem test_witness_DecodeOfEncodeIsTheInstruction :
    (Instr.readResponseFrame 1 4 0x14 (List.replicate 10 0xABCD) 0 0).wellFormed = true ∧
    (Instr.compute (List.replicate 255 1)).wellFormed = true := by decide +kernel
theorem test_witness_EncodeOfDecodedFrameIsTheFrame :
    Format.cmd4 ≠ .req ∧ decode .cmd4 [0x01, 0x42, 0x80, 0x11] = .instr (.resetCommandFrame 0x01 0x80 0x11) := by decide +kernel
theorem test_witness_DecodedRequest_record : decode .req [0x00, 0x01, 0x01, 0x41] = .instr (.compute [0x41]) := by decide +kernel
theorem test_witness_DecodedRequest_counts : ([0x41] : List Byte).length < (2 : Byte).toNat ∧
    (0 : Byte).toNat < ([0x41] : List Byte).length := by decide
theorem test_witness_DecodedInstructionIsWellFormed : decode .req [0x03, 0x01, 0x00] = .instr (.encRead 0x01) := by decide +kernel
theorem test_witness_UnusedRequestFieldsAreIgnored : ([0xAB, 0xCD] : List Byte).length = (2 : Byte).toNat := by decide
theorem test_witness_MalformedRequest_rsv :
    (asked strictParams .req [0x10, 0x00, 0x00]).pending = some { format := .req, bytes := [0x10, 0x00, 0x00] } ∧
    rsvField 0x10 ≠ 0 := by decide +kernel
theorem test_witness_MalformedRequest_op6 :
    (asked strictParams .req [0x0E, 0x00, 0x00]).pending = some { format := .req, bytes := [0x0E, 0x00, 0x00] } ∧
    rsvField 0x0E = 0 ∧ opField 0x0E = 6 := by decide +kernel
theorem test_witness_MalformedRequest_op7 :
    (asked strictParams .req [0x07, 0x01, 0x00]).pending = some { format := .req, bytes := [0x07, 0x01, 0x00] } ∧
    rsvField 0x07 = 0 ∧ opField 0x07 = 7 := by decide +kernel
theorem test_witness_SingleBitFlip_payload : checksummed [0x41, 0x7F, 0x70] = true ∧ flipBit [0x41, 0x7F, 0x70] 0 0 = [0x40, 0x7F, 0x70] := by
  decide +kernel
theorem test_witness_SingleBitFlip_checksum : checksummed [0x41, 0x7F, 0x70] = true ∧ flipBit [0x41, 0x7F, 0x70] 2 7 = [0x41, 0x7F, 0xF0] := by
  decide +kernel
theorem test_witness_VerifyExactlyWhenResidueIsZero :
    checksummed [0x01, 0x42, 0x80, 0x11] = true ∧ 2 < ([0x01, 0x42, 0x80, 0x11] : List Byte).length := by decide +kernel
theorem test_witness_ComputeAnswersTheChecksum :
    Asks (asked strictParams .req [0x08, 0x5A, 0x01, 0x41]) 0 1 0x5A [0x41] ∧ ([0x41] : List Byte).length ≤ Config.fbCap := by
  unfold Asks; decide +kernel
theorem test_witness_AppendWritesTheChecksum :
    Asks (asked strictParams .req [0x01, 0x00, 0x03, 0x41, 0x00, 0x00]) 1 0 0 [0x41, 0x00, 0x00] ∧
    2 < ([0x41, 0x00, 0x00] : List Byte).length ∧ ([0x41, 0x00, 0x00] : List Byte).length ≤ Config.fbCap := by
  unfold Asks; decide +kernel
theorem test_witness_AppendOnShortBufferIsRefused : ([0xAA, 0xBB] : List Byte).length ≤ 2 := by decide
theorem test_witness_AppendLaws : ([0x41, 0xAA, 0xBB] : List Byte).length = ([0x41, 0x00, 0x00] : List Byte).length ∧
    payload [0x41, 0xAA, 0xBB] = payload [0x41, 0x00, 0x00] := by decide +kernel
theorem test_witness_VerifyComparesTheChecksum :
    Asks (asked strictParams .req [0x02, 0x00, 0x03, 0x41, 0x7F, 0x70]) 2 0 0 ([0x41] ++ [0x7F, 0x70]) ∧
    0 < ([0x41] : List Byte).length := by unfold Asks; decide +kernel
theorem test_witness_EncRead : addrOk someState.params 0x01 = true ∧ addrOk someState.params 0x00 = false ∧ Asks someState 3 0 0x01 [] := by unfold Asks; decide +kernel
theorem test_witness_EncReset :
    addrOk strictParams 0xFF = true ∧ addrOk strictParams 0x00 = false ∧ Asks (asked strictParams .req [0x0C, 0xFF, 0x00]) 4 1 0xFF [] := by unfold Asks; decide +kernel
theorem test_witness_RefusedAddressBuildsNothing : addrOk someState.params 0x00 = false := by decide +kernel
theorem test_witness_EncoderLaws : addrOk someState.params 0x01 = true ∧ addrOk someState.params 0x02 = true ∧
    addrOk State.reset.params 0x01 = true := by decide +kernel
theorem test_witness_ValidateReadRsp : Asks (asked strictParams .req [0x05, 0x07, 0x00]) 5 0 0x07 [] ∧
    (List.replicate 26 (0 : Byte)).length ≤ Config.fbCap ∧ s01.length = 25 ∧ checksummed s01 = true := by unfold Asks; decide +kernel
theorem test_witness_ValidateReadRsp_mismatch : (List.replicate 25 (0 : Byte)).length = 25 ∧ checksummed (List.replicate 25 0) = false := by
  decide +kernel
theorem test_witness_ResetAckAsSource : (asked asSourceParams .req []).params.resetAckJudge = .asSource ∧
    ([] : List Byte).length = 0 ∧ ([0x01] : List Byte).length ≤ 4 ∧ ([1, 2, 3, 4] : List Byte).length ≤ 4 ∧ ([1, 2, 3, 4, 5] : List Byte).length = 5 := by decide +kernel
theorem test_witness_ResetAckStrict : someState.params.resetAckJudge = .strict ∧ ([1, 2, 3, 4] : List Byte).length < 5 ∧
    checksummed [0x01, 0x42, 0x00, 0x10, 0xA0] = true ∧ checksummed [0x01, 0x42, 0x00, 0x10, 0xA1] = false := by decide +kernel
theorem test_witness_ResetAckOpenParameter : State.reset.params.resetAckJudge = .openParameter ∧ ([1, 2, 3, 4, 5] : List Byte).length ≤ 5 := by
  decide +kernel
theorem test_witness_OverLong : 25 < (List.replicate 26 (0 : Byte)).length ∧ 5 < (List.replicate 6 (0 : Byte)).length ∧
    (List.replicate 26 (0 : Byte)).length ≤ Config.fbCap := by decide +kernel
theorem test_witness_ValidatorExaminesOnlyLengthAndChecksum : (List.replicate 23 (0xFF : Byte)).length = 23 := by decide +kernel
theorem test_witness_ResponseFrameRows : (List.replicate 10 (0xABCD : Word)).length = 10 := by decide +kernel
theorem test_witness_StepRunsTheDecodedInstruction :
    someState.pending = some { format := .req, bytes := [0x03, 0x01, 0x00] } ∧
    decode .req [0x03, 0x01, 0x00] = .instr (.encRead 0x01) := by decide +kernel
theorem test_witness_IdleBlockWaits : (State.idle strictParams 4).pending = none := by decide +kernel
theorem test_witness_Invariant : someState.Inv ∧ (∃ t, step someState = .next t) ∧ (∃ t, exec (.encRead 0x01) someState = .next t) := by
  refine ⟨⟨by decide +kernel, by decide +kernel, by decide, by decide, ?_, ?_⟩, ⟨_, rfl⟩, ⟨_, rfl⟩⟩ <;> intro r h <;> cases h
theorem test_witness_EveryWorkingByteIsReadable : someState.Inv ∧ 4 < someState.wlen ∧ someState.wlen ≤ 5 ∧ 254 < Config.fbCap :=
  ⟨test_witness_Invariant.1, by decide, by decide, by decide⟩
theorem test_witness_UnwrittenWorkingBytesAreFree : 0 < Config.fbCap ∧ 254 < Config.fbCap := by decide
theorem test_witness_NothingCarriesOver : someState.params = (asked strictParams .req [0x03, 0x01, 0x00]).params ∧
    someState.pending = (asked strictParams .req [0x03, 0x01, 0x00]).pending ∧ someState.pending ≠ none := by decide +kernel
theorem test_witness_FailureCarriesNoResult :
    ∃ r, answerOf (exec (.append [0xAA, 0xBB]) someState) = some r ∧ r.status ≠ .ok := by exact ⟨_, rfl, by decide⟩
theorem test_witness_RequestsAreAnsweredInOrder : (State.idle strictParams 4).pending = none ∧
    ∀ i ∈ [Instr.encRead 0x01, Instr.append [0xAA]], i.wellFormed = true := by decide +kernel
theorem test_witness_Overlap : someState.pending = some { format := .req, bytes := [0x03, 0x01, 0x00] } ∧
    (State.idle strictParams 4).pending = none := by decide +kernel
theorem test_witness_DriverRequest_truncated : (State.idle strictParams 4).pending = none ∧ addrOk strictParams 0x01 = true ∧
    (readUpTo 25 [s01.take 10]).length < 25 := by decide +kernel
theorem test_witness_DriverRequest_mismatch : (readUpTo 25 [List.replicate 25 0]).length = 25 ∧
    checksummed (readUpTo 25 [List.replicate 25 0]) = false := by decide +kernel
theorem test_witness_DriverRequest_good : (readUpTo 25 [s01]).length = 25 ∧ checksummed (readUpTo 25 [s01]) = true := by decide +kernel
theorem test_witness_ValidateReadRspLaws : s01.length = 25 ∧ checksummed s01 = true ∧
    flipBit s01 24 7 = s01.take 24 ++ [0xC0] ∧ flipBit s01 0 0 = 0x00 :: s01.drop 1 := by decide +kernel
theorem test_witness_Decoder : s01.length = 25 ∧ checksummed s01 = true := by decide +kernel
theorem test_witness_WrongKind : ([1, 2, 3, 4, 5] : List Byte).length = 5 ∧ s01.length = 25 := by decide
theorem test_witness_EveryWellFormedInstructionAnswers :
    (Instr.verify (List.replicate 255 0)).wellFormed = true ∧ (Instr.resetAckFrame 0 0 0 0 0).wellFormed = true := by decide +kernel
theorem test_witness_ExecFrame : ∃ t, exec (.append [0x41, 0x00, 0x00]) someState = .next t := ⟨_, rfl⟩
theorem test_witness_ParametersAreNeverWritten : ∃ t, step someState = .next t := ⟨_, rfl⟩
theorem test_witness_StatusClasses_engine :
    (∃ r, answerOf (exec (.compute [0x41]) someState) = some r) ∧ (∃ r, answerOf (exec (.append [0x41, 0x00]) someState) = some r) ∧
    (∃ r, answerOf (exec (.append [0x41, 0x00, 0x00]) someState) = some r) ∧
    (∃ r, answerOf (exec (.verify [0x41]) someState) = some r) := ⟨⟨_, rfl⟩, ⟨_, rfl⟩, ⟨_, rfl⟩, ⟨_, rfl⟩⟩
theorem test_witness_StatusClasses_frames :
    (∃ r, answerOf (exec (.encRead 0x00) someState) = some r) ∧ (∃ r, answerOf (exec (.encReset 0x01) someState) = some r) ∧
    (∃ r, answerOf (exec (.validateReadRsp s01) someState) = some r) ∧
    (∃ r, answerOf (exec (.validateResetAck [0x01, 0x02, 0x03, 0x04, 0x05]) someState) = some r) ∧
    (∃ r, answerOf (exec (.validateResetAck [0x01, 0x02, 0x03, 0x04, 0x05, 0x06]) someState) = some r) :=
  ⟨⟨_, rfl⟩, ⟨_, rfl⟩, ⟨_, rfl⟩, ⟨_, rfl⟩, ⟨_, rfl⟩⟩
theorem test_witness_DriverResetOutcome : (State.idle strictParams 4).pending = none ∧ addrOk strictParams 0xF8 = true := by decide +kernel

end Sys2Proof.Tests
end

section
/-! The machine's step on a request that decodes to an instruction (00 R11, 30 R60). -/

namespace Sys2Proof.Machine

/-- With bytes pending that decode to `i`, the block takes the request and runs `i` (00 R11). -/
theorem step_eq_exec_accept {s : State} {p : Presented} {i : Instr}
    (hp : s.pending = some p) (hi : decode p.format p.bytes = .instr i) : step s = exec i s.accept := by
  simp only [step, hp, hi]

/-- Settles O35: the step's instruction branch, and what `accept` leaves in the three slots. -/
theorem stepRunsTheDecodedInstruction : Obligations.StepRunsTheDecodedInstruction :=
  fun s _ _ hp hi => ⟨step_eq_exec_accept hp hi, s.accept_params, s.accept_pending, s.accept_response⟩

end Sys2Proof.Machine
end

section
/-! What each operation answers, said once: its final state and its response as functions of the request (10 R24, 40 R95 to R102,
41 R121 to R125, 42 R136 to R140). -/

namespace Sys2Proof.Machine

/-- The state after operand sampling: `WLEN` and the buffer hold the request's data (10 R24). -/
def State.sampled (s : State) (data : List Byte) : State := (s.setWlen data.length).setWb (s.wb.writeAll 0 data)

@[simp] theorem State.sampled_params (s : State) (data : List Byte) : (s.sampled data).params = s.params := rfl
@[simp] theorem State.sampled_wlen (s : State) (data : List Byte) : (s.sampled data).wlen = data.length := rfl

theorem sampleBuffer_eq_sampled {data : List Byte} (s : State) (h : data.length ≤ Config.fbCap) :
    sampleBuffer data s = .ok (s.sampled data) := sampleBuffer_eq s h

theorem State.sampled_holds (s : State) (data : List Byte) : (s.sampled data).wb.Holds 0 data := holds_sampled data s

theorem computeOp_eq {data : List Byte} (s : State) (h : data.length ≤ Config.fbCap) :
    computeOp data s =
      .ok ((((s.sampled data).setCrc (crc16 data)).setIdx data.length).answer (crcResponse (crc16 data))) := by
  rw [computeOp, sampleBuffer_eq_sampled s h, ok_bind, State.sampled_wlen,
    checksumFirst_eq data (s.sampled_holds data) (by simp), ok_bind]
  rfl

theorem appendOp_short {data : List Byte} (s : State) (h : data.length ≤ 2) :
    appendOp data s = .ok ((s.sampled data).answer (bufferResponse .invalidInput data)) := by
  have hcap : data.length ≤ Config.fbCap := h.trans (by decide)
  rw [appendOp, sampleBuffer_eq_sampled s hcap, ok_bind, if_pos (by simpa using h),
    readBuffer_eq (s.sampled_holds data) rfl, ok_bind]
  rfl

theorem appendOp_long {data : List Byte} (s : State) (h2 : 2 < data.length) (h : data.length ≤ Config.fbCap) :
    appendOp data s =
      .ok ((((s.sampled data).afterChecksum data).setWb
        ((s.sampled data).wb.writeAll (payload data).length (checksumBytes (payload data)))).answer
          (bufferResponse .ok (withChecksum data))) := by
  have hp : data.length = (payload data).length + 2 := by rw [payload_length]; omega
  have hold : (s.sampled data).wb.Holds 0 (payload data) := (s.sampled_holds data).take _
  rw [appendOp, sampleBuffer_eq_sampled s h, ok_bind, if_neg (by simpa using h2), appendChecksum_eq hold hp, ok_bind,
    returnBuffer_eq (holds_after_append hold) (by simpa [checksumBytes] using hp)]
  rfl

theorem verifyOp_eq {data : List Byte} (s : State) (h : data.length ≤ Config.fbCap) :
    verifyOp data s =
      .ok ((if data.length ≤ 2 then s.sampled data else (s.sampled data).afterChecksum data).answer
        (verdictResponse .ok (checksummed data))) := by
  rw [verifyOp, sampleBuffer_eq_sampled s h, ok_bind, verifyChecksum_eq (s.sampled_holds data) rfl, ok_bind]
  rfl

theorem validateOp_overLong {n : Nat} {judge : State → Except Fault (Status × State)} {data : List Byte} (s : State)
    (h : data.length ≤ Config.fbCap) (hn : n < data.length) :
    validateOp n judge data s = .ok ((s.sampled data).answer (bufferResponse .invalidInput [])) := by
  rw [validateOp, sampleBuffer_eq_sampled s h, ok_bind, if_pos (by simpa using hn)]
  rfl

theorem validateOp_judged {n : Nat} {judge : State → Except Fault (Status × State)} {data : List Byte} {s u : State} {st : Status}
    (h : data.length ≤ Config.fbCap) (hn : data.length ≤ n) (hj : judge (s.sampled data) = .ok (st, u)) :
    validateOp n judge data s = .ok (u.answer (verdictResponse st (accepts st))) := by
  rw [validateOp, sampleBuffer_eq_sampled s h, ok_bind, if_neg (by simpa using hn), hj, ok_bind]
  rfl

/-- `APPEND`'s response (40 R98, R99). -/
def appendReply (data : List Byte) : Response :=
  if data.length ≤ 2 then bufferResponse .invalidInput data else bufferResponse .ok (withChecksum data)

/-- The encoder's response for a frame with payload `p` (41 R121, R123, R125). -/
def encodeReply (ps : Params) (addr : Byte) (p : List Byte) : Response :=
  if addrOk ps addr then bufferResponse .ok (p ++ checksumBytes p) else bufferResponse .invalidInput []

/-- `VALIDATE`'s response with expected length `n` (42 R136, R138). -/
def validateReply (n : Nat) (verdict : List Byte → Status) (data : List Byte) : Response :=
  if n < data.length then bufferResponse .invalidInput [] else verdictResponse (verdict data) (accepts (verdict data))

/-- The response of every instruction: a function of its operands and the parameters (10 R20, 60 R185). -/
def reply (ps : Params) : Instr → Response
  | .compute data => crcResponse (crc16 data)
  | .append data => appendReply data
  | .verify data => verdictResponse .ok (checksummed data)
  | .encRead addr => encodeReply ps addr (readTemplate addr)
  | .encReset addr => encodeReply ps addr (resetTemplate addr)
  | .validateReadRsp data => validateReply Config.readRspLen (fixedVerdict Config.readRspLen) data
  | .validateResetAck data => validateReply Config.resetAckLen (resetAckVerdict ps.resetAckJudge) data
  | .readCommandFrame addr _ _ => encodeReply ps addr (readTemplate addr)
  | .resetCommandFrame addr _ _ => encodeReply ps addr (resetTemplate addr)
  | .readResponseFrame addr fc count regs crcLo crcHi =>
    validateReply Config.readRspLen (fixedVerdict Config.readRspLen) (rsp25Bytes addr fc count regs crcLo crcHi)
  | .resetAckFrame b0 b1 b2 crcLo crcHi =>
    validateReply Config.resetAckLen (resetAckVerdict ps.resetAckJudge) (rsp5Bytes b0 b1 b2 crcLo crcHi)

end Sys2Proof.Machine
end

section
/-! The frame of the operations: what a state keeps when only its registers and the first bytes of its buffer are written
(10 R24, R26). -/

namespace Sys2Proof.Machine

/-- `t` keeps of `s` all but the working registers, the response and the first `n` bytes of the buffer. -/
def KeepsRest (s : State) (n : Nat) (t : State) : Prop := SameShell s t ∧ ∀ a, n ≤ a → t.wb.read a = s.wb.read a

theorem KeepsRest.refl (s : State) (n : Nat) : KeepsRest s n s := ⟨⟨rfl, rfl, rfl⟩, fun _ _ => rfl⟩

theorem KeepsRest.setWlen {s t : State} {n : Nat} (h : KeepsRest s n t) (k : Nat) : KeepsRest s n (t.setWlen k) := h

theorem KeepsRest.setCrc {s t : State} {n : Nat} (h : KeepsRest s n t) (v : Word) : KeepsRest s n (t.setCrc v) := h

theorem KeepsRest.setIdx {s t : State} {n : Nat} (h : KeepsRest s n t) (k : Nat) : KeepsRest s n (t.setIdx k) := h

theorem KeepsRest.afterChecksum {s t : State} {n : Nat} (h : KeepsRest s n t) (f : List Byte) : KeepsRest s n (t.afterChecksum f) := h

theorem KeepsRest.answer {s t : State} {n : Nat} (h : KeepsRest s n t) (r : Response) : KeepsRest s n (t.answer r) := h

/-- Writing bytes below offset `n` keeps the rest. -/
theorem KeepsRest.writeAll {s t : State} {n a : Nat} {vs : List Byte} (h : KeepsRest s n t) (hn : a + vs.length ≤ n) :
    KeepsRest s n (t.setWb (t.wb.writeAll a vs)) :=
  ⟨h.1, fun b hb => (Memory.read_writeAll_outside vs t.wb a b (.inr (hn.trans hb))).trans (h.2 b hb)⟩

theorem keepsRest_sampled (s : State) (data : List Byte) : KeepsRest s data.length (s.sampled data) :=
  ((KeepsRest.refl s _).setWlen data.length).writeAll (by simp)

/-- A judgement answers the verdict `st` on the sampled buffer and writes at most `CRC` and `IDX`. -/
def Judges (judge : State → Except Fault (Status × State)) (st : Status) (data : List Byte) (s : State) : Prop :=
  ∃ u, judge (s.sampled data) = .ok (st, u) ∧ KeepsRest s data.length u

theorem judgeFixed_judges {n : Nat} (hn : 2 < n) (data : List Byte) (s : State) :
    Judges (judgeFixed n) (fixedVerdict n data) data s := by
  refine ⟨_, judgeFixed_eq hn (s.sampled_holds data) rfl, ?_⟩
  split
  · exact keepsRest_sampled s data
  · exact (keepsRest_sampled s data).afterChecksum data

theorem judgeResetAck_judges (data : List Byte) (s : State) :
    Judges judgeResetAck (resetAckVerdict s.params.resetAckJudge data) data s := by
  refine ⟨_, judgeResetAck_eq (s.sampled_holds data) rfl, ?_⟩
  split
  · exact (keepsRest_sampled s data).afterChecksum data
  · exact keepsRest_sampled s data

/-- The operation ends with response `r`, having written nothing but the working registers and the first `n` bytes of the buffer. -/
def Answers (o : Except Fault State) (s : State) (n : Nat) (r : Response) : Prop :=
  ∃ t, o = .ok t ∧ t.response = some r ∧ KeepsRest s n t

theorem answers_of_eq {o : Except Fault State} {s u : State} {n : Nat} {r : Response} (ho : o = .ok (u.answer r))
    (hu : KeepsRest s n u) : Answers o s n r :=
  ⟨u.answer r, ho, rfl, hu.answer r⟩

theorem computeOp_answers {data : List Byte} (s : State) (h : data.length ≤ Config.fbCap) :
    Answers (computeOp data s) s data.length (crcResponse (crc16 data)) :=
  answers_of_eq (computeOp_eq s h) (((keepsRest_sampled s data).setCrc _).setIdx _)

theorem appendOp_answers {data : List Byte} (s : State) (h : data.length ≤ Config.fbCap) :
    Answers (appendOp data s) s data.length (appendReply data) := by
  unfold appendReply
  split
  next hshort => exact answers_of_eq (appendOp_short s hshort) (keepsRest_sampled s data)
  next hlong =>
    have hend : (payload data).length + (checksumBytes (payload data)).length ≤ data.length := by
      simp only [payload_length, checksumBytes, List.length_cons, List.length_nil]; omega
    exact answers_of_eq (appendOp_long s (by omega) h) (((keepsRest_sampled s data).afterChecksum data).writeAll hend)

theorem verifyOp_answers {data : List Byte} (s : State) (h : data.length ≤ Config.fbCap) :
    Answers (verifyOp data s) s data.length (verdictResponse .ok (checksummed data)) := by
  refine answers_of_eq (verifyOp_eq s h) ?_
  split
  · exact keepsRest_sampled s data
  · exact (keepsRest_sampled s data).afterChecksum data

theorem validateOp_answers {n : Nat} {judge : State → Except Fault (Status × State)} {verdict : List Byte → Status}
    {data : List Byte} {s : State} (hj : Judges judge (verdict data) data s) (h : data.length ≤ Config.fbCap) :
    Answers (validateOp n judge data s) s data.length (validateReply n verdict data) := by
  obtain ⟨u, hu, hkeep⟩ := hj
  unfold validateReply
  split
  next hover => exact answers_of_eq (validateOp_overLong s h hover) (keepsRest_sampled s data)
  next hfits => exact answers_of_eq (validateOp_judged h (by omega) hu) hkeep

/-- The encoder's answer, when the bytes laid down begin with the payload `p` (41 R121, R123, R125). -/
theorem encodeFrame_answers {addr : Byte} (p : List Byte) {rest : List Byte} (s : State) (hrest : rest.length ≤ 2) :
    Answers (encodeFrame (p.length + 2) addr (p ++ rest) s) s (p.length + 2) (encodeReply s.params addr p) := by
  unfold encodeReply
  split
  next hok =>
    have hlaid : KeepsRest s (p.length + 2) (s.setWb (s.wb.writeAll 0 (p ++ rest))) :=
      (KeepsRest.refl s _).writeAll (by simp only [List.length_append]; omega)
    have hframe := hlaid.writeAll (a := p.length) (vs := checksumBytes p) (by simp [checksumBytes])
    exact answers_of_eq (encodeFrame_eq hok hrest) (((hframe.setWlen _).setCrc _).setIdx _)
  next hrefused => exact answers_of_eq (encodeFrame_refused (by simpa using hrefused)) (KeepsRest.refl s _)

end Sys2Proof.Machine
end

section
/-! What an instruction can do: answer `reply`, keeping the rest of the state, or fault on a buffer over `FB_CAP`. -/

namespace Sys2Proof.Machine

/-- The answer of an operation is the answer of the instruction that runs it. -/
theorem Answers.outcome_next {o : Except Fault State} {s : State} {n : Nat} {r : Response} (h : Answers o s n r) :
    ∃ t, Machine.outcome o = .next t ∧ t.response = some r ∧ KeepsRest s n t := by
  obtain ⟨t, rfl, ht⟩ := h
  exact ⟨t, rfl, ht⟩

/-- An instruction whose buffer fits answers, from every state. -/
theorem exec_answers (i : Instr) (s : State) (h : bufferLength i ≤ Config.fbCap) :
    ∃ t, exec i s = .next t ∧ t.response = some (reply s.params i) ∧ KeepsRest s (bufferLength i) t := by
  cases i with
  | compute data => exact (computeOp_answers s h).outcome_next
  | append data => exact (appendOp_answers s h).outcome_next
  | verify data => exact (verifyOp_answers s h).outcome_next
  | encRead addr => exact (encodeFrame_answers (readTemplate addr) (rest := []) s (by simp)).outcome_next
  | encReset addr => exact (encodeFrame_answers (resetTemplate addr) (rest := []) s (by simp)).outcome_next
  | validateReadRsp data => exact (validateOp_answers (judgeFixed_judges (by decide) data s) h).outcome_next
  | validateResetAck data => exact (validateOp_answers (judgeResetAck_judges data s) h).outcome_next
  | readCommandFrame addr crcLo crcHi =>
    exact (encodeFrame_answers (readTemplate addr) (rest := [crcLo, crcHi]) s (by simp)).outcome_next
  | resetCommandFrame addr crcLo crcHi =>
    exact (encodeFrame_answers (resetTemplate addr) (rest := [crcLo, crcHi]) s (by simp)).outcome_next
  | readResponseFrame addr fc count regs crcLo crcHi =>
    exact (validateOp_answers (judgeFixed_judges (by decide) (rsp25Bytes addr fc count regs crcLo crcHi) s) h).outcome_next
  | resetAckFrame b0 b1 b2 crcLo crcHi =>
    exact (validateOp_answers (judgeResetAck_judges (rsp5Bytes b0 b1 b2 crcLo crcHi) s) h).outcome_next

theorem rsp25Bytes_length (addr fc count : Byte) (regs : List Word) (crcLo crcHi : Byte) :
    (rsp25Bytes addr fc count regs crcLo crcHi).length = 2 * regs.length + 5 := by
  simp [rsp25Bytes, Laws.TableRow.wordsToBytes_length]

/-- A well-formed instruction's buffer fits (20 R40, 30 R60, R68). -/
theorem bufferLength_le_of_wellFormed {i : Instr} (h : i.wellFormed = true) : bufferLength i ≤ Config.fbCap := by
  cases i with
  | compute data | append data | verify data | validateReadRsp data | validateResetAck data => exact of_decide_eq_true h
  | encRead | encReset | readCommandFrame | resetCommandFrame | resetAckFrame =>
    simp only [bufferLength]; decide
  | readResponseFrame addr fc count regs crcLo crcHi =>
    have hregs : regs.length = 10 := of_decide_eq_true h
    simp only [bufferLength, rsp25Bytes_length, hregs]; decide

theorem validateOp_overCapacity {n : Nat} {judge : State → Except Fault (Status × State)} {data : List Byte} (s : State)
    (h : ¬ data.length ≤ Config.fbCap) : validateOp n judge data s = .error .overCapacity := by
  rw [validateOp, sampleBuffer_overCapacity s h, error_bind]

/-- An instruction whose buffer does not fit faults at operand sampling (log 14). -/
theorem exec_overCapacity (i : Instr) (s : State) (h : ¬ bufferLength i ≤ Config.fbCap) : exec i s = .fault .overCapacity := by
  cases i with
  | compute data => rw [exec, execCompute, computeOp, sampleBuffer_overCapacity s h, error_bind, outcome_error]
  | append data => rw [exec, execAppend, appendOp, sampleBuffer_overCapacity s h, error_bind, outcome_error]
  | verify data => rw [exec, execVerify, verifyOp, sampleBuffer_overCapacity s h, error_bind, outcome_error]
  | encRead | encReset | readCommandFrame | resetCommandFrame | resetAckFrame => exact absurd (bufferLength_le_of_wellFormed rfl) h
  | validateReadRsp data => rw [exec, execValidateReadRsp, validateOp_overCapacity s h, outcome_error]
  | validateResetAck data => rw [exec, execValidateResetAck, validateOp_overCapacity s h, outcome_error]
  | readResponseFrame addr fc count regs crcLo crcHi =>
    rw [exec, execReadResponseFrame, validateOp_overCapacity s h, outcome_error]

/-- What `exec` can answer: an instruction that ends in a next state had a buffer that fits, and answered `reply`. -/
theorem exec_next {i : Instr} {s t : State} (h : exec i s = .next t) :
    bufferLength i ≤ Config.fbCap ∧ t.response = some (reply s.params i) ∧ KeepsRest s (bufferLength i) t := by
  by_cases hfit : bufferLength i ≤ Config.fbCap
  · obtain ⟨u, hu, hresp, hkeep⟩ := exec_answers i s hfit
    obtain rfl : u = t := by simpa [hu] using h
    exact ⟨hfit, hresp, hkeep⟩
  · rw [exec_overCapacity i s hfit] at h
    cases h

/-- The response of `exec`: none for a buffer over `FB_CAP`, otherwise `reply`. -/
theorem answerOf_exec (i : Instr) (s : State) :
    answerOf (exec i s) = if bufferLength i ≤ Config.fbCap then some (reply s.params i) else none := by
  split
  next hfit =>
    obtain ⟨t, ht, hresp, -⟩ := exec_answers i s hfit
    rw [ht, answerOf, hresp]
  next hover => rw [exec_overCapacity i s hover, answerOf]

/-- Settles O40: a well-formed instruction's buffer fits, and then the instruction answers. -/
theorem everyWellFormedInstructionAnswers : Obligations.EveryWellFormedInstructionAnswers := by
  intro i s hwf
  obtain ⟨t, ht, hresp, -⟩ := exec_answers i s (bufferLength_le_of_wellFormed hwf)
  exact ⟨t, reply s.params i, ht, hresp⟩

/-- Settles O42: what an instruction that answers keeps is exactly this frame. -/
theorem execFrame : Obligations.ExecFrame := by
  intro i s t h
  obtain ⟨-, -, hkeep⟩ := exec_next h
  exact hkeep

end Sys2Proof.Machine
end

section
/-! What a step can do, and the statements about every step (10 R20, R26; 30 R78; 60 R185). -/

namespace Sys2Proof.Machine

theorem step_of_malformed {s : State} {p : Presented} (hp : s.pending = some p) (hd : decode p.format p.bytes = .malformed) :
    step s = .next (answerMalformed s.accept) := by
  simp only [step, hp, hd]

theorem step_of_rejected {s : State} {p : Presented} {why : Reject} (hp : s.pending = some p)
    (hd : decode p.format p.bytes = .rejected why) : step s = .refused (.notARequest why) := by
  simp only [step, hp, hd]

/-- A step that ends in a next state waited, ran the decoded instruction, or answered a malformed request. -/
theorem step_next {s t : State} (h : step s = .next t) :
    (s.pending = none ∧ t = s) ∨
    (∃ p i, s.pending = some p ∧ decode p.format p.bytes = .instr i ∧ exec i s.accept = .next t) ∨
    (∃ p, s.pending = some p ∧ decode p.format p.bytes = .malformed ∧ t = answerMalformed s.accept) := by
  cases hp : s.pending with
  | none =>
    simp only [step, hp, Host.Outcome.next.injEq] at h
    exact .inl ⟨rfl, h.symm⟩
  | some p =>
    cases hd : decode p.format p.bytes with
    | instr i => exact .inr (.inl ⟨p, i, rfl, hd, step_eq_exec_accept hp hd ▸ h⟩)
    | malformed =>
      rw [step_of_malformed hp hd, Host.Outcome.next.injEq] at h
      exact .inr (.inr ⟨p, rfl, hd, h.symm⟩)
    | rejected why =>
      rw [step_of_rejected hp hd] at h
      cases h

theorem answerOf_exec_congr (i : Instr) {s s' : State} (h : s.params = s'.params) : answerOf (exec i s) = answerOf (exec i s') := by
  rw [answerOf_exec, answerOf_exec, h]

/-- Settles O41: both states take the same request, and `exec`'s answer is a function of the parameters alone. -/
theorem nothingCarriesOverBetweenOperations : Obligations.NothingCarriesOverBetweenOperations := by
  refine ⟨fun s s' hparams hpending hbusy => ?_, fun i _ _ => answerOf_exec_congr i⟩
  obtain ⟨p, hp⟩ := Option.ne_none_iff_exists'.mp hbusy
  have hp' : s'.pending = some p := hpending ▸ hp
  cases hd : decode p.format p.bytes with
  | instr i =>
    rw [step_eq_exec_accept hp hd, step_eq_exec_accept hp' hd]
    exact answerOf_exec_congr i hparams
  | malformed =>
    rw [step_of_malformed hp hd, step_of_malformed hp' hd]
    rfl
  | rejected why => rw [step_of_rejected hp hd, step_of_rejected hp' hd]

/-- Settles O43: waiting changes nothing, an instruction keeps the parameters by its frame, and a malformed request by `accept`. -/
theorem parametersAreNeverWritten : Obligations.ParametersAreNeverWritten := by
  intro s t h
  obtain ⟨-, rfl⟩ | ⟨p, i, -, -, hexec⟩ | ⟨p, -, -, rfl⟩ := step_next h
  · rfl
  · obtain ⟨⟨hparams, -, -⟩, -⟩ := execFrame i s.accept t hexec
    rw [hparams, State.accept_params]
  · rfl

/-- The idle block's working buffer holds free values (10 R31, 93 U7). -/
theorem State.idle_wb_read (ps : Params) (k : Nat) {a : Nat} (ha : a < Config.fbCap) :
    (State.idle ps k).wb.read a = some (Config.freeWb k a) :=
  Memory.read_filled _ (Nat.zero_le a) (by omega)

/-- Settles O53: reset, host reset and the taking of a request each leave the idle block. -/
theorem unwrittenWorkingBytesAreFree : Obligations.UnwrittenWorkingBytesAreFree :=
  ⟨⟨0, fun _ => State.idle_wb_read Config.defaultParams 0⟩,
    fun s _ ha => ⟨State.idle_wb_read s.params s.draws ha, State.idle_wb_read s.params s.draws ha⟩⟩

end Sys2Proof.Machine
end

section
/-! The high bytes of the CRC table (20 R44; said under 40 R105). -/

namespace Sys2Proof.Machine

theorem hi_xor (v w : Word) : hi (v ^^^ w) = hi v ^^^ hi w := BitVec.extractLsb'_xor

theorem tabRead_xor (i j : Byte) : tabRead (i ^^^ j) = tabRead i ^^^ tabRead j := by
  rw [tabRead, BitVec.setWidth_xor, step8_xor]
  rfl

/-- Entry 0 is the only one of the 256 entries with a zero high byte. -/
theorem hi_tabRead_eq_zero_iff : ∀ i : Byte, hi (tabRead i) = 0 ↔ i = 0 := by decide +kernel

/-- Settles O11: the table is linear over exclusive-or, so entries with equal high bytes differ by an entry whose high byte is zero. -/
theorem tableHighBytesAreDistinct : Obligations.TableHighBytesAreDistinct := by
  refine ⟨fun i j h => ?_, hi_tabRead_eq_zero_iff⟩
  have hzero : hi (tabRead (i ^^^ j)) = 0 := by rw [tabRead_xor, hi_xor, h, BitVec.xor_self]; rfl
  exact BitVec.xor_eq_zero_iff.mp ((hi_tabRead_eq_zero_iff _).mp hzero)

end Sys2Proof.Machine
end

section
/-! The invariant in two halves: the working registers, which every write of an operation keeps, and the response it ends with
(10 section 2, 20 R40, 30 R63). -/

namespace Sys2Proof.Machine

/-- The invariant's half about the working registers: the buffer is canonical with exactly its `FB_CAP` cells, `IDX` and `WLEN` are in
range. -/
structure State.WorkingInv (s : State) : Prop where
  wbCanonical : s.wb.wf = true
  wbWhole     : s.wb.offsets = List.range Config.fbCap
  idxInRange  : s.idx ≤ Config.fbCap
  wlenInRange : s.wlen ≤ Config.fbCap

/-- The invariant's half about a response: `len` counts the data, `valid` only with status `OK`. -/
structure Response.Consistent (r : Response) : Prop where
  lenCounts    : r.data.length = r.len.toNat
  validMeansOk : r.valid = true → r.status = .ok

theorem State.Inv.workingInv {s : State} (h : s.Inv) : s.WorkingInv := ⟨h.wbCanonical, h.wbWhole, h.idxInRange, h.wlenInRange⟩

theorem State.WorkingInv.inv {s : State} (h : s.WorkingInv) (hr : ∀ r, s.response = some r → r.Consistent) : s.Inv :=
  ⟨h.wbCanonical, h.wbWhole, h.idxInRange, h.wlenInRange, fun r hs => (hr r hs).lenCounts, fun r hs => (hr r hs).validMeansOk⟩

theorem State.WorkingInv.inv_of_response {s : State} {r : Response} (h : s.WorkingInv) (hs : s.response = some r)
    (hr : r.Consistent) : s.Inv :=
  h.inv fun r' hs' => by
    obtain rfl : r = r' := Option.some.inj (hs.symm.trans hs')
    exact hr

/-- The idle block has the invariant, whatever its free values are (10 R31). -/
theorem State.idle_inv (ps : Params) (k : Nat) : (State.idle ps k).Inv :=
  State.WorkingInv.inv
    ⟨Memory.wfFrom_filled _ _ (Nat.le_refl 0), by rw [State.idle_wb, Memory.offsets_filled, List.range_eq_range'],
      Nat.le_of_lt_succ (Config.freeIdx k).isLt, Nat.le_of_lt_succ (Config.freeWlen k).isLt⟩
    (fun r h => by cases h)

/-! The working registers' half: one lemma per write. -/

theorem State.WorkingInv.setCrc {s : State} (h : s.WorkingInv) (v : Word) : (s.setCrc v).WorkingInv := { h with }

theorem State.WorkingInv.setIdx {s : State} {n : Nat} (h : s.WorkingInv) (hn : n ≤ Config.fbCap) : (s.setIdx n).WorkingInv :=
  { h with idxInRange := hn }

theorem State.WorkingInv.setWlen {s : State} {n : Nat} (h : s.WorkingInv) (hn : n ≤ Config.fbCap) : (s.setWlen n).WorkingInv :=
  { h with wlenInRange := hn }

theorem State.WorkingInv.answer {s : State} (h : s.WorkingInv) (r : Response) : (s.answer r).WorkingInv := { h with }

/-- Writing bytes below `FB_CAP` writes cells the buffer already has. -/
theorem State.WorkingInv.writeAll {s : State} {a : Nat} {vs : List Byte} (h : s.WorkingInv) (hn : a + vs.length ≤ Config.fbCap) :
    (s.setWb (s.wb.writeAll a vs)).WorkingInv :=
  { h with
    wbCanonical := Memory.wf_writeAll vs a h.wbCanonical
    wbWhole := Memory.offsets_writeAll vs hn h.wbCanonical h.wbWhole }

theorem State.WorkingInv.sampled {s : State} {data : List Byte} (h : s.WorkingInv) (hd : data.length ≤ Config.fbCap) :
    (s.sampled data).WorkingInv :=
  (h.setWlen hd).writeAll (by simpa using hd)

theorem State.WorkingInv.afterChecksum {s : State} {f : List Byte} (h : s.WorkingInv) (hf : f.length ≤ Config.fbCap) :
    (s.afterChecksum f).WorkingInv :=
  (h.setCrc _).setIdx (by rw [payload_length]; omega)

/-! The response's half: one lemma per response an operation builds. -/

/-- The 8-bit `len` counts a buffer of at most `FB_CAP` bytes (30 R60, R63). -/
theorem length_eq_toNat_ofNat {f : List Byte} (h : f.length ≤ Config.fbCap) : f.length = (BitVec.ofNat 8 f.length).toNat := by
  rw [BitVec.toNat_ofNat, Nat.mod_eq_of_lt (Nat.lt_succ_of_le h)]

theorem bufferResponse_consistent (st : Status) {f : List Byte} (h : f.length ≤ Config.fbCap) : (bufferResponse st f).Consistent where
  lenCounts := length_eq_toNat_ofNat h
  validMeansOk h := by cases h

theorem crcResponse_consistent (c : Word) : (crcResponse c).Consistent := ⟨rfl, fun _ => rfl⟩

theorem verdictResponse_ok_consistent (valid : Bool) : (verdictResponse .ok valid).Consistent := ⟨rfl, fun _ => rfl⟩

theorem verdictResponse_accepts_consistent (st : Status) : (verdictResponse st (accepts st)).Consistent :=
  ⟨rfl, fun h => of_decide_eq_true h⟩

theorem appendReply_consistent {data : List Byte} (h : data.length ≤ Config.fbCap) : (appendReply data).Consistent := by
  unfold appendReply
  split
  · exact bufferResponse_consistent _ h
  next hlong =>
    refine bufferResponse_consistent _ ?_
    simp only [withChecksum, checksumBytes, List.length_append, payload_length, List.length_cons, List.length_nil]
    omega

theorem encodeReply_consistent (ps : Params) (addr : Byte) {p : List Byte} (h : p.length + 2 ≤ Config.fbCap) :
    (encodeReply ps addr p).Consistent := by
  unfold encodeReply
  split
  · exact bufferResponse_consistent _ (by simpa [checksumBytes] using h)
  · exact bufferResponse_consistent _ (Nat.zero_le _)

theorem validateReply_consistent (n : Nat) (verdict : List Byte → Status) (data : List Byte) :
    (validateReply n verdict data).Consistent := by
  unfold validateReply
  split
  · exact bufferResponse_consistent _ (Nat.zero_le _)
  · exact verdictResponse_accepts_consistent _

/-- Every response of an instruction whose buffer fits is consistent (30 R63, 40 R101, 42 R136). -/
theorem reply_consistent (ps : Params) {i : Instr} (h : bufferLength i ≤ Config.fbCap) : (reply ps i).Consistent := by
  cases i with
  | compute data => exact crcResponse_consistent _
  | append data => exact appendReply_consistent h
  | verify data => exact verdictResponse_ok_consistent _
  | encRead addr | encReset addr | readCommandFrame addr | resetCommandFrame addr => exact encodeReply_consistent ps addr h
  | validateReadRsp | validateResetAck | readResponseFrame | resetAckFrame => exact validateReply_consistent _ _ _

end Sys2Proof.Machine
end

section
/-! Every instruction and every step keeps the invariant. -/

namespace Sys2Proof.Machine

/-- An operation that answers from a state with its registers in range ends with its registers in range. -/
theorem next_workingInv {o : Except Fault State} {u t : State} {r : Response} (ho : o = .ok (u.answer r)) (hu : u.WorkingInv)
    (h : outcome o = .next t) : t.WorkingInv := by
  obtain rfl : u.answer r = t := by simpa [ho] using h
  exact hu.answer r

theorem appendOp_workingInv {data : List Byte} {s t : State} (hs : s.WorkingInv) (hfit : data.length ≤ Config.fbCap)
    (h : outcome (appendOp data s) = .next t) : t.WorkingInv := by
  have hsampled := hs.sampled hfit
  by_cases hshort : data.length ≤ 2
  · exact next_workingInv (appendOp_short s hshort) hsampled h
  · have hend : (payload data).length + (checksumBytes (payload data)).length ≤ Config.fbCap := by
      simp only [payload_length, checksumBytes, List.length_cons, List.length_nil]; omega
    exact next_workingInv (appendOp_long s (by omega) hfit) ((hsampled.afterChecksum hfit).writeAll hend) h

theorem verifyOp_workingInv {data : List Byte} {s t : State} (hs : s.WorkingInv) (hfit : data.length ≤ Config.fbCap)
    (h : outcome (verifyOp data s) = .next t) : t.WorkingInv := by
  refine next_workingInv (verifyOp_eq s hfit) ?_ h
  split
  · exact hs.sampled hfit
  · exact (hs.sampled hfit).afterChecksum hfit

theorem encodeFrame_workingInv {addr : Byte} (p : List Byte) {rest : List Byte} {s t : State} (hs : s.WorkingInv)
    (hrest : rest.length ≤ 2) (hfit : p.length + 2 ≤ Config.fbCap)
    (h : outcome (encodeFrame (p.length + 2) addr (p ++ rest) s) = .next t) : t.WorkingInv := by
  cases hok : addrOk s.params addr with
  | false => exact next_workingInv (encodeFrame_refused hok) hs h
  | true =>
    have hlaid : (s.setWb (s.wb.writeAll 0 (p ++ rest))).WorkingInv :=
      hs.writeAll (by simp only [List.length_append]; omega)
    have hframe := hlaid.writeAll (a := p.length) (vs := checksumBytes p) hfit
    exact next_workingInv (encodeFrame_eq hok hrest)
      (((hframe.setWlen hfit).setCrc _).setIdx (n := p.length) (by omega)) h

/-- A judgement answers on the sampled buffer and leaves the registers in range. -/
def JudgesInRange (judge : State → Except Fault (Status × State)) (data : List Byte) (s : State) : Prop :=
  ∃ st u, judge (s.sampled data) = .ok (st, u) ∧ u.WorkingInv

theorem judgeFixed_judgesInRange {n : Nat} (hn : 2 < n) {data : List Byte} {s : State} (hs : s.WorkingInv)
    (hfit : data.length ≤ Config.fbCap) : JudgesInRange (judgeFixed n) data s := by
  refine ⟨_, _, judgeFixed_eq hn (s.sampled_holds data) rfl, ?_⟩
  split
  · exact hs.sampled hfit
  · exact (hs.sampled hfit).afterChecksum hfit

theorem judgeResetAck_judgesInRange {data : List Byte} {s : State} (hs : s.WorkingInv) (hfit : data.length ≤ Config.fbCap) :
    JudgesInRange judgeResetAck data s := by
  refine ⟨_, _, judgeResetAck_eq (s.sampled_holds data) rfl, ?_⟩
  split
  · exact (hs.sampled hfit).afterChecksum hfit
  · exact hs.sampled hfit

theorem validateOp_workingInv {n : Nat} {judge : State → Except Fault (Status × State)} {data : List Byte} {s t : State}
    (hj : JudgesInRange judge data s) (hs : s.WorkingInv) (hfit : data.length ≤ Config.fbCap)
    (h : outcome (validateOp n judge data s) = .next t) : t.WorkingInv := by
  obtain ⟨st, u, hu, hinv⟩ := hj
  by_cases hover : n < data.length
  · exact next_workingInv (validateOp_overLong s hfit hover) (hs.sampled hfit) h
  · exact next_workingInv (validateOp_judged hfit (by omega) hu) hinv h

theorem validateFixed_workingInv {n : Nat} (hn : 2 < n) {data : List Byte} {s t : State} (hs : s.WorkingInv)
    (hfit : data.length ≤ Config.fbCap) (h : outcome (validateOp n (judgeFixed n) data s) = .next t) : t.WorkingInv :=
  validateOp_workingInv (judgeFixed_judgesInRange hn hs hfit) hs hfit h

theorem validateResetAck_workingInv {n : Nat} {data : List Byte} {s t : State} (hs : s.WorkingInv)
    (hfit : data.length ≤ Config.fbCap) (h : outcome (validateOp n judgeResetAck data s) = .next t) : t.WorkingInv :=
  validateOp_workingInv (judgeResetAck_judgesInRange hs hfit) hs hfit h

theorem exec_workingInv {i : Instr} {s t : State} (hs : s.WorkingInv) (h : exec i s = .next t) : t.WorkingInv := by
  obtain ⟨hfit, -, -⟩ := exec_next h
  cases i with
  | compute data => exact next_workingInv (computeOp_eq s hfit) (((hs.sampled hfit).setCrc _).setIdx hfit) h
  | append data => exact appendOp_workingInv hs hfit h
  | verify data => exact verifyOp_workingInv hs hfit h
  | encRead addr => exact encodeFrame_workingInv (readTemplate addr) (rest := []) hs (by decide) hfit h
  | encReset addr => exact encodeFrame_workingInv (resetTemplate addr) (rest := []) hs (by decide) hfit h
  | validateReadRsp data => exact validateFixed_workingInv (by decide) hs hfit h
  | validateResetAck data => exact validateResetAck_workingInv hs hfit h
  | readCommandFrame addr crcLo crcHi =>
    exact encodeFrame_workingInv (readTemplate addr) (rest := [crcLo, crcHi]) hs (Nat.le_refl 2) hfit h
  | resetCommandFrame addr crcLo crcHi =>
    exact encodeFrame_workingInv (resetTemplate addr) (rest := [crcLo, crcHi]) hs (Nat.le_refl 2) hfit h
  | readResponseFrame addr fc count regs crcLo crcHi => exact validateFixed_workingInv (by decide) hs hfit h
  | resetAckFrame b0 b1 b2 crcLo crcHi =>
    exact validateResetAck_workingInv (data := rsp5Bytes b0 b1 b2 crcLo crcHi) hs hfit h

/-- Settles O39: the registers stay in range through every operation, and the response is the instruction's reply. -/
theorem execKeepsTheInvariant : Obligations.ExecKeepsTheInvariant := by
  intro i s t hs h
  obtain ⟨hfit, hresp, -⟩ := exec_next h
  exact (exec_workingInv hs.workingInv h).inv_of_response hresp (reply_consistent s.params hfit)

/-- Settles O38: a step waits, runs an instruction on the idle block, or answers a malformed request on the idle block. -/
theorem stepKeepsTheInvariant : Obligations.StepKeepsTheInvariant := by
  intro s t hs h
  have haccept : s.accept.Inv := State.idle_inv s.params s.draws
  obtain ⟨-, rfl⟩ | ⟨p, i, -, -, hexec⟩ | ⟨p, -, -, rfl⟩ := step_next h
  · exact hs
  · exact execKeepsTheInvariant i s.accept t haccept hexec
  · exact (haccept.workingInv.answer _).inv_of_response rfl (bufferResponse_consistent _ (Nat.zero_le _))

theorem memRead_of_wlen_le {s : State} {a : Nat} (h : s.wlen ≤ a) : memRead a s = .error .offsetOutOfRange :=
  if_neg (Nat.not_lt.mpr h)

/-- Settles O52: a cell holds a byte exactly when it is listed, the listed cells are the `FB_CAP` cells, and `WLEN` does not exceed
them. -/
theorem everyWorkingByteIsReadable : Obligations.EveryWorkingByteIsReadable := by
  intro s a hs
  have hcell : (∃ v, s.wb.read a = some v) ↔ a < Config.fbCap := by
    rw [← Option.isSome_iff_exists, Memory.read_isSome_iff, hs.wbWhole, List.mem_range]
  refine ⟨hcell, fun ha => ?_, memRead_of_wlen_le⟩
  obtain ⟨v, hv⟩ := hcell.mpr (Nat.lt_of_lt_of_le ha hs.wlenInRange)
  exact ⟨v, hv, memRead_of_listed ha hv⟩

end Sys2Proof.Machine
end

section
/-! Decoding what the host presents for a well-formed instruction (30 R60 to R62, R66 to R69). -/

namespace Sys2Proof.Machine

theorem opField_headerByte (op : BitVec 3) (kind : BitVec 1) (rsv : BitVec 4) : opField (headerByte op kind rsv) = op := by
  revert op kind rsv; decide +kernel

theorem kindField_headerByte (op : BitVec 3) (kind : BitVec 1) (rsv : BitVec 4) : kindField (headerByte op kind rsv) = kind := by
  revert op kind rsv; decide +kernel

theorem rsvField_headerByte (op : BitVec 3) (kind : BitVec 1) (rsv : BitVec 4) : rsvField (headerByte op kind rsv) = rsv := by
  revert op kind rsv; decide +kernel

/-- A request record with `rsv` zero is read by its operation code (30 R60, R61). -/
theorem decodeRequest_packRequest (op : BitVec 3) (kind : BitVec 1) (addr len : Byte) (data : List Byte) :
    decodeRequest (packRequest op kind 0 addr len data) = decodeOp op kind addr len data := by
  rw [packRequest, decodeRequest, rsvField_headerByte, if_pos rfl, opField_headerByte, kindField_headerByte]

/-- A packed buffer decodes to the instruction its operation code selects for buffers. -/
theorem decode_packBuffer {op : BitVec 3} {kind : BitVec 1} {mk : List Byte → Instr} {data : List Byte}
    (hop : ∀ addr len data, decodeOp op kind addr len data = decodeBuffer mk len data) (h : bufferFits data = true) :
    decode .req (packBuffer op kind data) = .instr (mk data) := by
  rw [decode, packBuffer, decodeRequest_packRequest, hop, decodeBuffer, if_pos (length_eq_toNat_ofNat (of_decide_eq_true h))]

theorem bytesToWords_wordsToBytes (ws : List Word) : bytesToWords (wordsToBytes ws) = ws := by
  induction ws with
  | nil => rfl
  | cons w ws ih => rw [wordsToBytes, bytesToWords, joinBytes_hi_lo, ih]

theorem decodeRsp25_rsp25Bytes (addr fc count crcLo crcHi : Byte) {regs : List Word} (h : regs.length = 10) :
    decodeRsp25 (rsp25Bytes addr fc count regs crcLo crcHi) = .instr (.readResponseFrame addr fc count regs crcLo crcHi) := by
  have hlen : (wordsToBytes regs).length = 20 := by rw [Laws.TableRow.wordsToBytes_length, h]
  simp [decodeRsp25, rsp25Bytes, hlen, bytesToWords_wordsToBytes]

/-- A well-formed instruction's bytes decode to it. -/
theorem decode_encode {i : Instr} (h : i.wellFormed = true) : decode (formatOf i) (encode i) = .instr i := by
  cases i with
  | compute data | append data | verify data | validateReadRsp data | validateResetAck data =>
    exact decode_packBuffer (fun _ _ _ => rfl) h
  | encRead addr => exact decodeRequest_packRequest 3 0 addr 0 []
  | encReset addr => exact decodeRequest_packRequest 4 0 addr 0 []
  | readCommandFrame | resetCommandFrame | resetAckFrame => rfl
  | readResponseFrame => exact decodeRsp25_rsp25Bytes _ _ _ _ _ (of_decide_eq_true h)

end Sys2Proof.Machine
end

section
/-! The host asks for one operation after another (20 R48, 60 R185, 70 R206, R207). -/

namespace Sys2Proof.Machine

theorem State.present_of_idle {s : State} (h : s.pending = none) (p : Presented) : s.present p = some { s with pending := some p } := by
  simp only [State.present, h]

/-- Asking the idle block for a well-formed instruction gives its reply, and leaves the block idle with the same parameters. -/
theorem ask_requestFor {s : State} {i : Instr} (hidle : s.pending = none) (hwf : i.wellFormed = true) :
    ∃ t, ask (requestFor i) s = some (reply s.params i, t) ∧ t.pending = none ∧ t.params = s.params := by
  have hstep := step_eq_exec_accept (s := { s with pending := some (requestFor i) }) rfl (decode_encode hwf)
  obtain ⟨t, ht, hresp, ⟨hparams, hpending, -⟩, -⟩ :=
    exec_answers i ({ s with pending := some (requestFor i) } : State).accept (bufferLength_le_of_wellFormed hwf)
  refine ⟨t, ?_, hpending, hparams⟩
  simp only [ask, State.present_of_idle hidle, hstep, ht, hresp, Option.map_some, State.accept_params]

theorem askAll_requestFor {is : List Instr} (hwf : ∀ i ∈ is, i.wellFormed = true) {s : State} (hidle : s.pending = none) :
    ∃ t, askAll (is.map requestFor) s = some (is.map (reply s.params), t) ∧ t.pending = none ∧ t.params = s.params := by
  induction is generalizing s with
  | nil => exact ⟨s, rfl, hidle, rfl⟩
  | cons i is ih =>
    obtain ⟨hi, his⟩ := List.forall_mem_cons.mp hwf
    obtain ⟨u, hask, hupending, huparams⟩ := ask_requestFor hidle hi
    obtain ⟨t, hrest, htpending, htparams⟩ := ih his hupending
    refine ⟨t, ?_, htpending, htparams.trans huparams⟩
    simp only [List.map_cons, askAll, hask, hrest, huparams, Option.map_some]

/-- The idle block's own answer to a well-formed instruction. -/
theorem answerOf_exec_of_wellFormed {i : Instr} (s : State) (hwf : i.wellFormed = true) :
    answerOf (exec i s) = some (reply s.params i) := by
  rw [answerOf_exec, if_pos (bufferLength_le_of_wellFormed hwf)]

/-- Settles O46, by induction on the requests: asking leaves the block idle and keeps the parameters, and a reply
depends on nothing else. -/
theorem requestsAreAnsweredInOrder : Obligations.RequestsAreAnsweredInOrder := by
  intro s is hidle hwf
  obtain ⟨t, hall, hpending, hparams⟩ := askAll_requestFor hwf hidle
  refine ⟨is.map (reply s.params), t, hall, hpending, hparams, ?_⟩
  rw [List.map_map]
  exact List.map_congr_left fun i hi => (answerOf_exec_of_wellFormed (State.idle s.params 0) (hwf i hi)).symm

end Sys2Proof.Machine
end

section
/-! What the decoder reads: one inversion per part of it, and the statements about presented bytes (30 R60 to R62, R66 to R69, R78). -/

namespace Sys2Proof.Machine

/-- Settles O1: by the instruction's constructor, each encoding is read back field by field. -/
theorem decodeOfEncodeIsTheInstruction : Obligations.DecodeOfEncodeIsTheInstruction := fun _ => decode_encode

/-! Requests -/

/-- A header byte is packed from its three fields (30 R60). -/
theorem headerByte_fields : ∀ b : Byte, headerByte (opField b) (kindField b) (rsvField b) = b := by decide +kernel

theorem decodeBuffer_of_length {mk : List Byte → Instr} {len : Byte} {data : List Byte} (h : data.length = len.toNat) :
    decodeBuffer mk len data = .instr (mk data) := if_pos h

theorem decodeBuffer_of_lt {mk : List Byte → Instr} {len : Byte} {data : List Byte} (h : data.length < len.toNat) :
    decodeBuffer mk len data = .rejected .missingData := by
  rw [decodeBuffer, if_neg h.ne, if_pos h]

theorem decodeBuffer_of_gt {mk : List Byte → Instr} {len : Byte} {data : List Byte} (h : len.toNat < data.length) :
    decodeBuffer mk len data = .rejected .excessData := by
  rw [decodeBuffer, if_neg h.ne', if_neg h.asymm]

theorem decodeBuffer_eq_instr {mk : List Byte → Instr} {len : Byte} {data : List Byte} {i : Instr}
    (h : decodeBuffer mk len data = .instr i) : data.length = len.toNat ∧ i = mk data := by
  obtain hlt | heq | hgt := lt_trichotomy data.length len.toNat
  · rw [decodeBuffer_of_lt hlt] at h; cases h
  · rw [decodeBuffer_of_length heq] at h; cases h; exact ⟨heq, rfl⟩
  · rw [decodeBuffer_of_gt hgt] at h; cases h

/-- The eight operation codes of 30 R61. -/
theorem opCode_cases : ∀ op : BitVec 3, op = 0 ∨ op = 1 ∨ op = 2 ∨ op = 3 ∨ op = 4 ∨ op = 5 ∨ op = 6 ∨ op = 7 := by decide

theorem kind_cases : ∀ kind : BitVec 1, kind = 0 ∨ kind = 1 := by decide

/-- What a request with these fields asks for: an encoder operation takes its address, an operation on the buffer takes data that `len`
counts (30 R60, R61, R62). -/
def RequestsInstr (op : BitVec 3) (kind : BitVec 1) (addr len : Byte) (data : List Byte) (i : Instr) : Prop :=
  op = 3 ∧ i = .encRead addr ∨ op = 4 ∧ i = .encReset addr ∨
    data.length = len.toNat ∧ (op = 0 ∧ i = .compute data ∨ op = 1 ∧ i = .append data ∨ op = 2 ∧ i = .verify data ∨
      op = 5 ∧ kind = 0 ∧ i = .validateReadRsp data ∨ op = 5 ∧ kind = 1 ∧ i = .validateResetAck data)

theorem requestsInstr_of_decodeOp {op : BitVec 3} {kind : BitVec 1} {addr len : Byte} {data : List Byte} {i : Instr}
    (h : decodeOp op kind addr len data = .instr i) : RequestsInstr op kind addr len data i := by
  unfold RequestsInstr
  obtain rfl | rfl | rfl | rfl | rfl | rfl | rfl | rfl := opCode_cases op
  · obtain ⟨hlen, rfl⟩ := decodeBuffer_eq_instr h; simp [hlen]
  · obtain ⟨hlen, rfl⟩ := decodeBuffer_eq_instr h; simp [hlen]
  · obtain ⟨hlen, rfl⟩ := decodeBuffer_eq_instr h; simp [hlen]
  · cases h; simp
  · cases h; simp
  · obtain rfl | rfl := kind_cases kind <;> obtain ⟨hlen, rfl⟩ := decodeBuffer_eq_instr h <;> simp [hlen]
  · cases h
  · cases h

/-- What decodes as a request is a request record with `rsv` zero that asks for the instruction. -/
theorem packRequest_of_decodeRequest {bytes : List Byte} {i : Instr} (h : decodeRequest bytes = .instr i) :
    ∃ op kind addr len data, bytes = packRequest op kind 0 addr len data ∧ RequestsInstr op kind addr len data i := by
  unfold decodeRequest at h
  split at h
  next b addr len data =>
    split at h
    next hrsv =>
      exact ⟨opField b, kindField b, addr, len, data, by rw [packRequest, ← hrsv, headerByte_fields], requestsInstr_of_decodeOp h⟩
    next => cases h
  next => cases h

theorem RequestsInstr.wellFormed_req {op : BitVec 3} {kind : BitVec 1} {addr len : Byte} {data : List Byte} {i : Instr}
    (h : RequestsInstr op kind addr len data i) : i.wellFormed = true ∧ formatOf i = .req := by
  obtain ⟨-, rfl⟩ | ⟨-, rfl⟩ | ⟨hlen, h⟩ := h
  · exact ⟨rfl, rfl⟩
  · exact ⟨rfl, rfl⟩
  · have hfits : bufferFits data = true := decide_eq_true (hlen ▸ Nat.le_of_lt_succ len.isLt)
    obtain ⟨-, rfl⟩ | ⟨-, rfl⟩ | ⟨-, rfl⟩ | ⟨-, -, rfl⟩ | ⟨-, -, rfl⟩ := h <;> exact ⟨hfits, rfl⟩

/-- The operation codes that use the buffer read it alike. -/
theorem decodeOp_eq_decodeBuffer {op : BitVec 3} (h : op = 0 ∨ op = 1 ∨ op = 2 ∨ op = 5) (kind : BitVec 1) :
    ∃ mk, ∀ addr len data, decodeOp op kind addr len data = decodeBuffer mk len data := by
  obtain rfl | rfl | rfl | rfl := h
  · exact ⟨.compute, fun _ _ _ => rfl⟩
  · exact ⟨.append, fun _ _ _ => rfl⟩
  · exact ⟨.verify, fun _ _ _ => rfl⟩
  · obtain rfl | rfl := kind_cases kind
    · exact ⟨.validateReadRsp, fun _ _ _ => rfl⟩
    · exact ⟨.validateResetAck, fun _ _ _ => rfl⟩

/-- Settles O51: the inversion of `decodeRequest`, and the two rejections of `decodeBuffer`. -/
theorem decodedRequestIsTheRequestRecord : Obligations.DecodedRequestIsTheRequestRecord := by
  refine ⟨fun _ _ => packRequest_of_decodeRequest, fun op kind addr len data hop => ?_⟩
  obtain ⟨mk, hmk⟩ := decodeOp_eq_decodeBuffer hop kind
  rw [decode, decodeRequest_packRequest, hmk]
  exact ⟨decodeBuffer_of_lt, decodeBuffer_of_gt⟩

/-- Settles O4: a request record is read by its operation code, and an operation reads only its own fields. -/
theorem unusedRequestFieldsAreIgnored : Obligations.UnusedRequestFieldsAreIgnored := by
  intro kind addr len data
  simp only [decode, decodeRequest_packRequest]
  refine ⟨rfl, rfl, fun hlen => ⟨?_, ?_, ?_, ?_, ?_⟩⟩ <;> exact decodeBuffer_of_length hlen

/-- A non-zero `rsv` or a reserved `op` is malformed, whatever the other fields are (30 R78). -/
theorem decode_malformed {b : Byte} (addr len : Byte) (data : List Byte) (h : rsvField b ≠ 0 ∨ opField b = 6 ∨ opField b = 7) :
    decode .req (b :: addr :: len :: data) = .malformed := by
  rw [decode, decodeRequest]
  split
  next hrsv =>
    obtain hop | hop := h.resolve_left (not_not_intro hrsv) <;> rw [hop] <;> rfl
  next => rfl

/-- Settles O5: the request is malformed, and the idle block answers it. -/
theorem malformedRequestIsAnsweredInvalidInput : Obligations.MalformedRequestIsAnsweredInvalidInput :=
  fun s _ addr len data hp h =>
    ⟨answerMalformed s.accept, step_of_malformed hp (decode_malformed addr len data h), s.accept_params, s.accept_pending, rfl⟩

/-- Settles O6: the words of instructions are their encodings, and the other one has the reserved operation code 6. -/
theorem specWordsDecodeAsTheSpecSays : Obligations.SpecWordsDecodeAsTheSpecSays :=
  ⟨decode_encode (i := .compute [0x01, 0x04, 0x00, 0x00, 0x00, 0x0A]) rfl,
    decode_encode (i := .validateResetAck [0x01, 0x42, 0x00, 0x10, 0xA0]) rfl,
    decodeRequest_packRequest 3 0 0x01 0x00 [], decode_malformed 0x00 0x00 [] (.inr (.inl rfl)),
    decode_encode (i := .readCommandFrame 0x01 0x70 0x0D) rfl, decode_encode (i := .resetCommandFrame 0x01 0x80 0x11) rfl⟩

/-! Frames -/

/-- An even number of bytes read as 16-bit fields is laid down again unchanged (20 R42 (b)). -/
theorem wordsToBytes_bytesToWords {n : Nat} {bytes : List Byte} (h : bytes.length = 2 * n) :
    wordsToBytes (bytesToWords bytes) = bytes := by
  induction n generalizing bytes with
  | zero => rw [List.length_eq_zero_iff.mp h]; rfl
  | succ n ih =>
    match bytes, h with
    | b :: c :: rest, h =>
      rw [bytesToWords, wordsToBytes, hi_joinBytes, lo_joinBytes, ih (by simp only [List.length_cons] at h; omega)]

/-- The bytes are a frame of format `f` that carries the fields of `i`. -/
def IsFrameOf (f : Format) (bytes : List Byte) (i : Instr) : Prop := formatOf i = f ∧ i.wellFormed = true ∧ encode i = bytes

theorem isFrameOf_of_decodeCmd8 {bytes : List Byte} {i : Instr} (h : decodeCmd8 bytes = .instr i) : IsFrameOf .cmd8 bytes i := by
  unfold decodeCmd8 at h
  split at h
  next a fc s1 s0 c1 c0 l hh =>
    split at h
    next hfields =>
      obtain ⟨rfl, hstart, hcount⟩ := hfields
      cases h
      refine ⟨rfl, rfl, ?_⟩
      rw [encode, cmd8Bytes, ← hstart, ← hcount]
      simp only [wordsToBytes, hi_joinBytes, lo_joinBytes, List.cons_append, List.nil_append]
    next => cases h
  next => cases h

theorem isFrameOf_of_decodeCmd4 {bytes : List Byte} {i : Instr} (h : decodeCmd4 bytes = .instr i) : IsFrameOf .cmd4 bytes i := by
  unfold decodeCmd4 at h
  split at h
  next a fc l hh =>
    split at h
    next hfc => cases h; exact ⟨rfl, rfl, by rw [hfc]; rfl⟩
    next => cases h
  next => cases h

theorem isFrameOf_of_decodeRsp25 {bytes : List Byte} {i : Instr} (h : decodeRsp25 bytes = .instr i) : IsFrameOf .rsp25 bytes i := by
  unfold decodeRsp25 at h
  split at h
  next e f n rest =>
    split at h
    next hrest =>
      cases h
      have hregs : wordsToBytes (bytesToWords (rest.take 20)) = rest.take 20 :=
        wordsToBytes_bytesToWords (n := 10) (by simp [hrest])
      have hcount : (bytesToWords (rest.take 20)).length = 10 := by
        have := congrArg List.length hregs
        rw [Laws.TableRow.wordsToBytes_length, List.length_take, hrest] at this
        omega
      obtain ⟨l, hh, hsplit, hl, hhi, -⟩ := eq_payload_append (f := rest) (by omega)
      rw [hrest] at hl hhi
      refine ⟨rfl, decide_eq_true hcount, ?_⟩
      rw [encode, rsp25Bytes, hregs, List.getD_eq_getElem?_getD, List.getD_eq_getElem?_getD, hl, hhi]
      rw [payload, hrest] at hsplit
      exact congrArg (e :: f :: n :: ·) hsplit.symm
    next => cases h
  next => cases h

theorem isFrameOf_of_decodeRsp5 {bytes : List Byte} {i : Instr} (h : decodeRsp5 bytes = .instr i) : IsFrameOf .rsp5 bytes i := by
  unfold decodeRsp5 at h
  split at h
  next => cases h; exact ⟨rfl, rfl, rfl⟩
  next => cases h

/-- What decodes in a frame format is the frame of the instruction (30 R66 to R69). -/
theorem isFrameOf_of_decode {f : Format} {bytes : List Byte} {i : Instr} (hf : f ≠ .req) (h : decode f bytes = .instr i) :
    IsFrameOf f bytes i := by
  cases f with
  | req => exact absurd rfl hf
  | cmd8 => exact isFrameOf_of_decodeCmd8 h
  | cmd4 => exact isFrameOf_of_decodeCmd4 h
  | rsp25 => exact isFrameOf_of_decodeRsp25 h
  | rsp5 => exact isFrameOf_of_decodeRsp5 h

/-- Settles O2: by the inversion of each frame format's decoder. -/
theorem encodeOfDecodedFrameIsTheFrame : Obligations.EncodeOfDecodedFrameIsTheFrame := by
  intro f bytes i hf h
  obtain ⟨hformat, -, hbytes⟩ := isFrameOf_of_decode hf h
  exact ⟨hformat, hbytes⟩

/-- Settles O3: a request's 8-bit `len` bounds its buffer, and a frame's length fixes its registers. -/
theorem decodedInstructionIsWellFormed : Obligations.DecodedInstructionIsWellFormed := by
  intro f bytes i h
  by_cases hf : f = .req
  · subst hf
    obtain ⟨op, kind, addr, len, data, -, hrequests⟩ := packRequest_of_decodeRequest h
    exact hrequests.wellFormed_req
  · obtain ⟨hformat, hwf, -⟩ := isFrameOf_of_decode hf h
    exact ⟨hwf, hformat⟩

end Sys2Proof.Machine
end

section
/-! The packed response (30 R63, 60 R180). -/

namespace Sys2Proof.Machine

theorem statusCode_injective : Function.Injective statusCode := by
  intro st st'
  cases st <;> cases st' <;> decide

/-- The fields of a byte laid out as the response's header byte 0 (30 R63). -/
theorem responseHeader_fields : ∀ (code : BitVec 2) (valid : Bool),
    let b : Byte := (0 : BitVec 5) ++ BitVec.ofBool valid ++ code
    b.extractLsb' 0 2 = code ∧ b.getLsbD 2 = valid ∧ b.extractLsb' 3 5 = 0 := by decide

theorem responseHeaderByte_inj {st st' : Status} {valid valid' : Bool}
    (h : responseHeaderByte st valid = responseHeaderByte st' valid') : st = st' ∧ valid = valid' := by
  obtain ⟨hcode, hvalid, -⟩ := responseHeader_fields (statusCode st) valid
  obtain ⟨hcode', hvalid', -⟩ := responseHeader_fields (statusCode st') valid'
  refine ⟨statusCode_injective ?_, ?_⟩
  · exact hcode.symm.trans ((congrArg (·.extractLsb' 0 2) h).trans hcode')
  · exact hvalid.symm.trans ((congrArg (·.getLsbD 2) h).trans hvalid')

theorem packResponse_injective : Function.Injective packResponse := by
  rintro ⟨st, valid, crc, len, data⟩ ⟨st', valid', crc', len', data'⟩ h
  simp only [packResponse, List.cons.injEq] at h
  obtain ⟨hheader, hlo, hhi, rfl, rfl⟩ := h
  obtain ⟨rfl, rfl⟩ := responseHeaderByte_inj hheader
  obtain rfl : crc = crc' := by rw [← joinBytes_hi_lo crc, hhi, hlo, joinBytes_hi_lo]
  rfl

/-- Settles O7: the header byte's fields, and that the header byte and the two checksum bytes determine what they are packed from. -/
theorem packedResponseKeepsEveryField : Obligations.PackedResponseKeepsEveryField :=
  ⟨fun r => ⟨responseHeaderByte r.status r.valid, rfl, responseHeader_fields (statusCode r.status) r.valid⟩,
    fun _ _ h => packResponse_injective h, rfl, rfl, rfl, rfl⟩

end Sys2Proof.Machine
end

section
/-! The frame-format rows run the operation their rule names (30 R72; log 1). -/

namespace Sys2Proof.Machine

/-- Bytes written over by at least as many leave no trace. -/
theorem Memory.read_writeAll_over {rest ws : List Byte} (m : Memory) (a b : Nat) (h : rest.length ≤ ws.length) :
    ((m.writeAll a rest).writeAll a ws).read b = (m.writeAll a ws).read b := by
  by_cases hb : b < a ∨ a + ws.length ≤ b
  · rw [Memory.read_writeAll_outside _ _ _ _ hb, Memory.read_writeAll_outside _ _ _ _ (by omega),
      Memory.read_writeAll_outside _ _ _ _ hb]
  · obtain ⟨j, rfl⟩ := Nat.exists_eq_add_of_le (by omega : a ≤ b)
    have hj : j < ws.length := by omega
    rw [Memory.holds_writeAll _ _ _ j hj, Memory.holds_writeAll _ _ _ j hj]

/-- The states hold the same response, checksum registers, buffer length and buffer contents. -/
def SameWork (t u : State) : Prop :=
  t.response = u.response ∧ t.crc = u.crc ∧ t.idx = u.idx ∧ t.wlen = u.wlen ∧ ∀ k, t.wb.read k = u.wb.read k

theorem SameWork.refl (t : State) : SameWork t t := ⟨rfl, rfl, rfl, rfl, fun _ => rfl⟩

/-- Bytes laid down where the checksum goes play no part in the frame built (41 R121 corner cases). -/
theorem encodeFrame_rest_ignored {addr : Byte} (p : List Byte) {rest : List Byte} (s : State) (hrest : rest.length ≤ 2) :
    ∃ t u, encodeFrame (p.length + 2) addr (p ++ rest) s = .ok t ∧ encodeFrame (p.length + 2) addr p s = .ok u ∧
      SameWork t u := by
  cases hok : addrOk s.params addr with
  | false => exact ⟨_, _, encodeFrame_refused hok, encodeFrame_refused hok, SameWork.refl _⟩
  | true =>
    have hplain := encodeFrame_eq (rest := []) (p := p) hok (Nat.zero_le 2)
    rw [List.append_nil] at hplain
    refine ⟨_, _, encodeFrame_eq hok hrest, hplain, rfl, rfl, rfl, rfl, fun k => ?_⟩
    simp only [State.answer_wb, State.setWb_wb, Memory.writeAll_append, Nat.zero_add]
    exact Memory.read_writeAll_over _ _ _ hrest

/-- A row that lays down `p` and two checksum bytes answers as the encoder operation that lays down `p`, with the encoder's frame. -/
theorem commandFrameRow_sameWork {row op : Instr} {addr : Byte} (p : List Byte) {rest : List Byte} (s : State)
    (hrest : rest.length ≤ 2) (hrow : exec row s = outcome (encodeFrame (p.length + 2) addr (p ++ rest) s))
    (hop : exec op s = outcome (encodeFrame (p.length + 2) addr p s)) :
    ∃ t u, exec row s = .next t ∧ exec op s = .next u ∧ t.response = u.response ∧
      t.crc = u.crc ∧ t.idx = u.idx ∧ t.wlen = u.wlen ∧ SameShell s t ∧ (∀ k, t.wb.read k = u.wb.read k) := by
  obtain ⟨t, u, ht, hu, hresp, hcrc, hidx, hwlen, hwb⟩ := encodeFrame_rest_ignored (addr := addr) p s hrest
  have hnext : exec row s = .next t := by rw [hrow, ht, outcome_ok]
  obtain ⟨hshell, -⟩ := execFrame row s t hnext
  exact ⟨t, u, hnext, by rw [hop, hu, outcome_ok], hresp, hcrc, hidx, hwlen, hshell, hwb⟩

/-- Settles O25: the rows lay down the encoder's template and two bytes more, which `APPEND` writes over. -/
theorem commandFrameRowsBuildTheFrame : Obligations.CommandFrameRowsBuildTheFrame :=
  fun s a l h =>
    ⟨commandFrameRow_sameWork (readTemplate a) (rest := [l, h]) s (Nat.le_refl 2) rfl rfl,
      commandFrameRow_sameWork (resetTemplate a) (rest := [l, h]) s (Nat.le_refl 2) rfl rfl⟩

theorem bufferBecomes_of_holds {s t : State} {f : List Byte} (hold : t.wb.Holds 0 f)
    (hrest : ∀ a, f.length ≤ a → t.wb.read a = s.wb.read a) : BufferBecomes s t f :=
  ⟨fun a ha => by simpa using hold a ha, hrest⟩

/-- A buffer of the acknowledgment's length or shorter is judged where it was sampled (42 R140). -/
theorem validateResetAck_holds {data : List Byte} (s : State) (h : data.length ≤ Config.resetAckLen) :
    ∃ t, exec (.validateResetAck data) s = .next t ∧ t.wlen = data.length ∧ t.wb.Holds 0 data := by
  have hj := judgeResetAck_eq (s.sampled_holds data) rfl
  refine ⟨_, congrArg outcome (validateOp_judged (h.trans (by decide)) h hj), ?_⟩
  split
  · exact ⟨rfl, s.sampled_holds data⟩
  · exact ⟨rfl, s.sampled_holds data⟩

theorem validateReply_of_length {n : Nat} {f : List Byte} (h : f.length = n) :
    validateReply n (fixedVerdict n) f =
      if checksummed f then verdictResponse .ok true else verdictResponse .checksumMismatch false := by
  rw [validateReply, if_neg (by omega), fixedVerdict, if_neg (by omega)]
  split <;> rfl

/-- Settles O34: each row runs `VALIDATE` on the frame's bytes; a read response has the expected length, so the checksum decides. -/
theorem responseFrameRowsAreJudged : Obligations.ResponseFrameRowsAreJudged := by
  refine ⟨fun s e f n regs l h hregs => ?_, fun s x0 x1 x2 l h => ?_⟩
  · have hlen : (rsp25Bytes e f n regs l h).length = Config.readRspLen := by rw [rsp25Bytes_length, hregs]
    obtain ⟨t, ht, hresp, -⟩ :=
      exec_answers (.readResponseFrame e f n regs l h) s (bufferLength_le_of_wellFormed (decide_eq_true hregs))
    exact ⟨t, ht, ht, hlen, hresp.trans (congrArg some (validateReply_of_length hlen))⟩
  · obtain ⟨t, ht, hwlen, hold⟩ := validateResetAck_holds (data := [x0, x1, x2, l, h]) s (Nat.le_refl 5)
    obtain ⟨hshell, hrest⟩ := execFrame _ s t ht
    exact ⟨t, ht, ht, hwlen, hshell, bufferBecomes_of_holds hold hrest⟩

end Sys2Proof.Machine
end

section
/-! The update in its bit-serial form, and what it loses: nothing (20 R44, 40 R92, R94, R96, R97, R104). -/

namespace Sys2Proof.Machine

theorem setWidth_hi (c : Word) : (hi c).setWidth 16 = c >>> 8 := by
  apply BitVec.eq_of_toNat_eq
  simp only [hi, BitVec.toNat_setWidth, BitVec.extractLsb'_toNat, BitVec.toNat_ushiftRight, Nat.shiftRight_eq_div_pow]
  omega

theorem hi_setWidth : ∀ b : Byte, hi (b.setWidth 16) = 0 := by decide +kernel

theorem joinBytes_eq_xor (h l : Byte) : joinBytes h l = (h.setWidth 16 <<< 8) ^^^ l.setWidth 16 := by
  apply BitVec.eq_of_getLsbD_eq
  intro i hlt
  by_cases hlow : i < 8
  · simp [joinBytes, hlow]
  · simp [joinBytes, hlow, BitVec.getLsbD_of_ge l i (by omega)]

/-- Eight bit-serial steps move the high byte down: no bit of it reaches the polynomial. -/
theorem step8_shifted_byte : ∀ h : Byte, step8 (h.setWidth 16 <<< 8) = h.setWidth 16 := by decide +kernel

/-- Eight bit-serial steps look the low byte up in the table and shift the high byte down (20 R44). -/
theorem step8_joinBytes (h l : Byte) : step8 (joinBytes h l) = h.setWidth 16 ^^^ tabRead l := by
  rw [joinBytes_eq_xor, step8_xor, step8_shifted_byte, tabRead]

/-- The table form is the bit-serial form (40 R96). -/
theorem crcStep_eq_step8 (c : Word) (b : Byte) : crcStep c b = step8 (c ^^^ b.setWidth 16) := by
  have hhi : hi (c ^^^ b.setWidth 16) = hi c := by rw [hi_xor, hi_setWidth]; exact BitVec.xor_zero
  rw [← joinBytes_hi_lo (c ^^^ b.setWidth 16), step8_joinBytes, hhi, setWidth_hi]
  rfl

/-- Settles O8: the index's word is its low byte, which the table looks up, and its high byte, which is the accumulator's. -/
theorem tableFormEqualsBitSerialForm : Obligations.TableFormEqualsBitSerialForm :=
  ⟨crcStep_eq_step8, by decide +kernel⟩

theorem crc16_append (s t : List Byte) : crc16 (s ++ t) = t.foldl crcStep (crc16 s) := List.foldl_append

/-- Settles O9: `crc16` is a left fold. -/
theorem checksumIsAFoldOfTheUpdate : Obligations.ChecksumIsAFoldOfTheUpdate :=
  ⟨rfl, fun s b => crc16_append s [b], crc16_append⟩

theorem crcStep_left_injective (b : Byte) : Function.Injective (crcStep · b) := by
  intro c d h
  simp only [crcStep_eq_step8] at h
  exact (BitVec.xor_left_inj _).mp (step8_inj h)

theorem crcStep_right_injective (c : Word) : Function.Injective (crcStep c) := by
  intro a b h
  rw [crcStep_eq_step8, crcStep_eq_step8] at h
  have hword : a.setWidth 16 = b.setWidth 16 := (BitVec.xor_right_inj c).mp (step8_inj h)
  simpa using congrArg (BitVec.setWidth 8) hword

/-- Settles O10: eight bit-serial steps lose nothing, and an injective map of the 16-bit words is onto. -/
theorem updateLosesNothing : Obligations.UpdateLosesNothing :=
  ⟨fun b => Finite.injective_iff_bijective.mp (crcStep_left_injective b), crcStep_right_injective⟩

theorem foldl_crcStep_injective (t : List Byte) : Function.Injective (t.foldl crcStep) := by
  induction t with
  | nil => exact Function.injective_id
  | cons b t ih => exact ih.comp (crcStep_left_injective b)

/-- Buffers that differ in one byte have different checksums. -/
theorem crc16_change_byte_inj {p t : List Byte} {a b : Byte} (h : crc16 (p ++ a :: t) = crc16 (p ++ b :: t)) : a = b := by
  rw [crc16_append, crc16_append] at h
  exact crcStep_right_injective _ (foldl_crcStep_injective t h)

end Sys2Proof.Machine
end

section
/-! Checksummed buffers: the embedded checksum, the residue, and a single flipped bit (30 R65, 40 R98, R100, R104, R105). -/

namespace Sys2Proof.Machine

/-- The update over two bytes is the update over the word they join to (40 R105). -/
theorem crcStep_crcStep (c : Word) (l h : Byte) : crcStep (crcStep c l) h = step8 (step8 (c ^^^ joinBytes h l)) := by
  rw [crcStep_eq_step8, crcStep_eq_step8, ← step8_shifted_byte h, ← step8_xor, joinBytes_eq_xor, BitVec.xor_assoc,
    BitVec.xor_comm (l.setWidth 16)]

theorem step8_zero : step8 0 = 0 := by simp only [step8, step1_zero]

/-- The residue: a buffer's checksum is zero exactly when its last two bytes are the checksum of the rest, low byte first (40 R105). -/
theorem crc16_append_pair_eq_zero_iff (p : List Byte) (l h : Byte) : crc16 (p ++ [l, h]) = 0 ↔ crc16 p = joinBytes h l := by
  have hfold : crc16 (p ++ [l, h]) = step8 (step8 (crc16 p ^^^ joinBytes h l)) := by
    rw [crc16_append]; exact crcStep_crcStep _ l h
  rw [hfold]
  refine ⟨fun hzero => BitVec.xor_eq_zero_iff.mp (step8_eq_zero (step8_eq_zero hzero)), fun heq => ?_⟩
  rw [heq, BitVec.xor_self]
  exact (congrArg step8 step8_zero).trans step8_zero

theorem payload_append_pair (p : List Byte) (l h : Byte) : payload (p ++ [l, h]) = p := by simp [payload]

theorem checksumBytes_eq_iff (p : List Byte) (l h : Byte) : [l, h] = checksumBytes p ↔ crc16 p = joinBytes h l := by
  rw [← joinBytes_hi_lo (crc16 p), joinBytes_inj]
  simp [checksumBytes, and_comm, eq_comm]

theorem checksummed_append_pair {p : List Byte} (hp : 0 < p.length) (l h : Byte) :
    checksummed (p ++ [l, h]) = decide (crc16 p = joinBytes h l) := by
  have hlen : 2 < (p ++ [l, h]).length := by simpa using hp
  rw [checksummed, payload_append_pair, decide_eq_true hlen, Bool.true_and, decide_eq_decide, ← checksumBytes_eq_iff]
  simp

theorem length_of_checksummed {f : List Byte} (h : checksummed f = true) : 2 < f.length := by
  rw [checksummed, Bool.and_eq_true] at h
  exact of_decide_eq_true h.1

/-- A buffer longer than 2 is checksummed exactly when its own checksum is zero (40 R105). -/
theorem checksummed_iff_residue {f : List Byte} (h2 : 2 < f.length) : checksummed f = true ↔ crc16 f = 0 := by
  obtain ⟨l, h, hsplit, -⟩ := eq_payload_append h2.le
  have hp : 0 < (payload f).length := by rw [payload_length]; omega
  rw [hsplit, checksummed_append_pair hp, decide_eq_true_iff, crc16_append_pair_eq_zero_iff]

theorem checksummed_withChecksum {f : List Byte} (h2 : 2 < f.length) : checksummed (withChecksum f) = true := by
  have hp : 0 < (payload f).length := by rw [payload_length]; omega
  rw [withChecksum, checksumBytes, checksummed_append_pair hp, joinBytes_hi_lo, decide_eq_true rfl]

theorem withChecksum_length {f : List Byte} (h2 : 2 ≤ f.length) : (withChecksum f).length = f.length := by
  simp only [withChecksum, checksumBytes, List.length_append, payload_length, List.length_cons, List.length_nil]; omega

theorem payload_withChecksum (f : List Byte) : payload (withChecksum f) = payload f := payload_append_pair _ _ _

theorem withChecksum_congr {f g : List Byte} (h : payload f = payload g) : withChecksum f = withChecksum g := by
  rw [withChecksum, withChecksum, h]

theorem bitMask_ne_zero : ∀ j < 8, (1 : Byte) <<< j ≠ 0 := by decide

theorem flipBit_length (f : List Byte) (k j : Nat) : (flipBit f k j).length = f.length := List.length_modify ..

/-- A flipped bit changes one byte, and so the checksum of the buffer (40 R104). -/
theorem crc16_flipBit_ne {f : List Byte} {k j : Nat} (hk : k < f.length) (hj : j < 8) : crc16 (flipBit f k j) ≠ crc16 f := by
  intro h
  obtain ⟨p, b, t, hf, -, hflip⟩ := List.exists_of_modify (fun b => b ^^^ ((1 : Byte) <<< j)) hk
  rw [flipBit, hflip, hf] at h
  have hsame : b ^^^ ((1 : Byte) <<< j) = b := crc16_change_byte_inj h
  exact bitMask_ne_zero j hj (by simpa using hsame)

theorem checksummed_flipBit {f : List Byte} {k j : Nat} (h : checksummed f = true) (hk : k < f.length) (hj : j < 8) :
    checksummed (flipBit f k j) = false := by
  have h2 := length_of_checksummed h
  have hzero := (checksummed_iff_residue h2).mp h
  rw [Bool.eq_false_iff, ne_eq, checksummed_iff_residue (by rwa [flipBit_length]), ← hzero]
  exact crc16_flipBit_ne hk hj

/-- Settles O12: the flipped buffer is not checksummed, and `VERIFY` says so. -/
theorem singleBitFlipIsAlwaysRejected : Obligations.SingleBitFlipIsAlwaysRejected := by
  intro s f k j hf hfit hk hj
  obtain ⟨t, ht, hresp, -⟩ := exec_answers (.verify (flipBit f k j)) s (by rwa [bufferLength, flipBit_length])
  exact ⟨t, _, ht, hresp, rfl, checksummed_flipBit hf hk hj⟩

/-- Settles O13: a buffer longer than 2 is checksummed exactly when its residue is zero, and `VERIFY` answers whether it is
checksummed. -/
theorem verifyExactlyWhenResidueIsZero : Obligations.VerifyExactlyWhenResidueIsZero := by
  refine ⟨fun f hf => (checksummed_iff_residue (length_of_checksummed hf)).mp hf, fun s f h2 hfit => ?_⟩
  obtain ⟨t, ht, hresp, -⟩ := exec_answers (.verify f) s hfit
  exact ⟨t, _, ht, hresp, checksummed_iff_residue h2⟩

end Sys2Proof.Machine
end

section
/-! The Checksum Engine's operations: results, registers, buffer and frame, and the requests that ask for them (40 R95 to R103). -/

namespace Sys2Proof.Machine

/-- A request that asks for an operation on the buffer, `kind` and `addr` at any value, is answered with the operation's reply
(30 R60, R61). -/
theorem answerOf_step_of_asks {s : State} {op : BitVec 3} {kind : BitVec 1} {addr : Byte} {data : List Byte}
    (mk : List Byte → Instr) (hask : Asks s op kind addr data)
    (hop : ∀ len, decodeOp op kind addr len data = decodeBuffer mk len data) (hdata : data.length ≤ Config.fbCap)
    (hbuffer : bufferLength (mk data) = data.length) :
    answerOf (step s) = some (reply s.params (mk data)) := by
  have hdecode : decode .req (packRequest op kind 0 addr (BitVec.ofNat 8 data.length) data) = .instr (mk data) := by
    rw [decode, decodeRequest_packRequest, hop, decodeBuffer_of_length (length_eq_toNat_ofNat hdata)]
  rw [step_eq_exec_accept hask hdecode, answerOf_exec, if_pos (hbuffer ▸ hdata), State.accept_params]

/-- An instruction ends with the shell kept and the buffer `f`, when it leaves `f` in the bytes it fills. -/
theorem frame_of_holds {i : Instr} {s t : State} {f : List Byte} (h : exec i s = .next t) (hold : t.wb.Holds 0 f)
    (hlen : bufferLength i = f.length) : SameShell s t ∧ BufferBecomes s t f := by
  obtain ⟨hshell, hrest⟩ := execFrame i s t h
  exact ⟨hshell, bufferBecomes_of_holds hold (hlen ▸ hrest)⟩

/-- Settles O14: by `COMPUTE`'s closed form, and a request with any `kind` and `addr` runs it. -/
theorem computeAnswersTheChecksum : Obligations.ComputeAnswersTheChecksum := by
  intro s data hfit
  have hexec := congrArg outcome (computeOp_eq s hfit)
  obtain ⟨hshell, hbuffer⟩ := frame_of_holds (i := .compute data) hexec (s.sampled_holds data) rfl
  exact ⟨⟨_, hexec, rfl, rfl, rfl, rfl, hshell, hbuffer⟩,
    fun kind addr hask => answerOf_step_of_asks .compute hask (fun _ => rfl) hfit rfl⟩

theorem appendReply_of_long {data : List Byte} (h2 : 2 < data.length) : appendReply data = bufferResponse .ok (withChecksum data) :=
  if_neg (by omega)

theorem bufferResponse_withChecksum (st : Status) {data : List Byte} (h2 : 2 < data.length) :
    bufferResponse st (withChecksum data) =
      { status := st, valid := false, crc := 0, len := BitVec.ofNat 8 data.length, data := withChecksum data } := by
  rw [bufferResponse, withChecksum_length h2.le]

/-- Settles O15: by `APPEND`'s closed form, whose buffer holds the payload and then the checksum. -/
theorem appendWritesTheChecksum : Obligations.AppendWritesTheChecksum := by
  intro s data h2 hfit
  have hexec := congrArg outcome (appendOp_long s h2 hfit)
  have hold := holds_after_append ((s.sampled_holds data).take (data.length - 2))
  obtain ⟨hshell, hbuffer⟩ := frame_of_holds (i := .append data) hexec hold (withChecksum_length h2.le).symm
  refine ⟨⟨_, hexec, congrArg some (bufferResponse_withChecksum .ok h2), rfl, payload_length data, rfl, hshell, hbuffer⟩,
    fun kind addr hask => ?_⟩
  rw [answerOf_step_of_asks .append hask (fun _ => rfl) hfit rfl, reply, appendReply_of_long h2, bufferResponse_withChecksum .ok h2]
  rfl

/-- Settles O16: the short `APPEND` ends right after operand sampling. -/
theorem appendOnShortBufferIsRefused : Obligations.AppendOnShortBufferIsRefused := by
  intro s data hshort
  have hexec := congrArg outcome (appendOp_short s hshort)
  exact ⟨_, hexec, rfl, rfl, rfl, rfl, frame_of_holds (i := .append data) hexec (s.sampled_holds data) rfl⟩

theorem answerOf_append {data : List Byte} (s : State) (h2 : 2 < data.length) (hfit : data.length ≤ Config.fbCap) :
    answerOf (exec (.append data) s) = some (bufferResponse .ok (withChecksum data)) :=
  (answerOf_exec_of_wellFormed (i := .append data) s (decide_eq_true hfit)).trans (congrArg some (appendReply_of_long h2))

/-- `APPEND` on a buffer of the same length with the same payload gives the same response (40 R100 (c)). -/
theorem answerOf_append_congr {data other : List Byte} (s : State) (h2 : 2 < data.length) (hfit : data.length ≤ Config.fbCap)
    (hlen : other.length = data.length) (hpayload : payload other = payload data) :
    answerOf (exec (.append other) s) = some (bufferResponse .ok (withChecksum data)) := by
  rw [answerOf_append s (hlen ▸ h2) (hlen ▸ hfit), withChecksum_congr hpayload]

/-- Settles O17: the result is the payload followed by its checksum, from every state; it has the payload it was made from, so
`APPEND` makes it again. -/
theorem appendLaws : Obligations.AppendLaws := by
  intro s data h2 hfit
  obtain ⟨t, ht, hresp, -⟩ := exec_answers (.append data) s hfit
  rw [reply, appendReply_of_long h2] at hresp
  refine ⟨t, _, ht, hresp, withChecksum_length h2.le, fun k hk => ?_, fun s' other => answerOf_append_congr s' h2 hfit,
    fun s' => answerOf_append_congr s' h2 hfit (withChecksum_length h2.le) (payload_withChecksum data),
    checksummed_withChecksum h2⟩
  have hin : k < (payload data).length := by rwa [payload_length]
  exact (List.getElem?_append_left hin).trans (List.getElem?_take_of_lt hk)

/-- `VERIFY`'s closed form on more than two bytes. -/
theorem verifyOp_long {data : List Byte} (s : State) (h2 : 2 < data.length) (hfit : data.length ≤ Config.fbCap) :
    verifyOp data s =
      .ok (((s.sampled data).afterChecksum data).answer (verdictResponse .ok (checksummed data))) := by
  rw [verifyOp_eq s hfit, if_neg (by omega)]

/-- Settles O18: by `VERIFY`'s closed form, the payload of `p ++ [l, h]` being `p`. -/
theorem verifyComparesTheChecksum : Obligations.VerifyComparesTheChecksum := by
  intro s p l h hp hfit
  have hlen : (p ++ [l, h]).length = p.length + 2 := by simp
  have hcap : (p ++ [l, h]).length ≤ Config.fbCap := hlen ▸ hfit
  have hreply : verdictResponse .ok (checksummed (p ++ [l, h])) =
      { status := .ok, valid := decide (crc16 p = joinBytes h l), crc := 0, len := 0, data := [] } := by
    rw [checksummed_append_pair hp, verdictResponse]
  have hexec := congrArg outcome (verifyOp_long s (by omega) hcap)
  obtain ⟨hshell, hbuffer⟩ := frame_of_holds (i := .verify (p ++ [l, h])) hexec (s.sampled_holds _) rfl
  refine ⟨⟨_, hexec, congrArg some hreply, congrArg crc16 (payload_append_pair p l h),
    congrArg List.length (payload_append_pair p l h), hlen, hshell, hbuffer⟩, fun kind addr hask => ?_⟩
  rw [answerOf_step_of_asks .verify hask (fun _ => rfl) hcap rfl, reply, hreply]

theorem checksummed_short {data : List Byte} (h : data.length ≤ 2) : checksummed data = false := by
  rw [checksummed, decide_eq_false (by omega), Bool.false_and]

/-- Settles O19: the short `VERIFY` ends right after operand sampling, and no short buffer is checksummed. -/
theorem verifyOnShortBufferIsFalse : Obligations.VerifyOnShortBufferIsFalse := by
  intro s data hshort
  have heq := verifyOp_eq s (hshort.trans (by decide))
  rw [if_pos hshort, checksummed_short hshort] at heq
  have hexec := congrArg outcome heq
  exact ⟨_, hexec, rfl, rfl, rfl, rfl, frame_of_holds (i := .verify data) hexec (s.sampled_holds data) rfl⟩

/-- Settles O20: what `APPEND` returns is checksummed, and `VERIFY` answers whether its buffer is. -/
theorem appendThenVerifyIsValid : Obligations.AppendThenVerifyIsValid := by
  intro s s' data h2 hfit
  obtain ⟨t, ht, hresp, -⟩ := exec_answers (.append data) s hfit
  rw [reply, appendReply_of_long h2] at hresp
  obtain ⟨t', ht', hresp', -⟩ :=
    exec_answers (.verify (withChecksum data)) s' (by rwa [bufferLength, withChecksum_length h2.le])
  rw [reply, checksummed_withChecksum h2] at hresp'
  exact ⟨t, _, t', ht, hresp, ht', hresp'⟩

end Sys2Proof.Machine
end

section
/-! The status class of each operation's reply (60 R181). -/

namespace Sys2Proof.Machine

theorem eq_reply_of_answerOf {i : Instr} {s : State} {r : Response} (h : answerOf (exec i s) = some r) : r = reply s.params i := by
  rw [answerOf_exec] at h
  split at h
  · exact (Option.some.inj h).symm
  · cases h

theorem appendReply_status (data : List Byte) : (appendReply data).status = if data.length ≤ 2 then .invalidInput else .ok := by
  unfold appendReply
  split <;> rfl

theorem encodeReply_status (ps : Params) (addr : Byte) (p : List Byte) :
    (encodeReply ps addr p).status = if addrOk ps addr then .ok else .invalidInput := by
  unfold encodeReply
  split <;> rfl

theorem validateReply_status (n : Nat) (verdict : List Byte → Status) (data : List Byte) :
    (validateReply n verdict data).status = if n < data.length then .invalidInput else verdict data := by
  unfold validateReply
  split <;> rfl

/-- Settles O44: an answer is the instruction's reply, and each kind of reply has its status. -/
theorem statusClassesByOperation : Obligations.StatusClassesByOperation := by
  intro s data a r
  refine ⟨fun h => ?_, fun h => ?_, fun h => ?_, fun h => ?_, fun h => ?_, fun h => ?_, fun h => ?_⟩ <;>
    obtain rfl := eq_reply_of_answerOf h
  · rfl
  · exact appendReply_status data
  · rfl
  · exact encodeReply_status s.params a _
  · exact encodeReply_status s.params a _
  · exact validateReply_status _ _ data
  · refine (validateReply_status _ _ data).trans (congrArg (ite _ _) ?_)
    cases s.params.resetAckJudge <;> rfl

end Sys2Proof.Machine
end

section
/-! The Frame Encoder: the frame, the registers and the buffer, refused addresses, and the laws of the frames (41 R121 to R126). -/

namespace Sys2Proof.Machine

/-- The frame the encoder makes of a payload: the payload and its checksum, low byte first (41 R121, R125). -/
def encodedFrame (p : List Byte) : List Byte := p ++ checksumBytes p

theorem encodedFrame_length (p : List Byte) : (encodedFrame p).length = p.length + 2 := List.length_append

theorem checksummed_encodedFrame {p : List Byte} (hp : 0 < p.length) : checksummed (encodedFrame p) = true := by
  rw [encodedFrame, checksumBytes, checksummed_append_pair hp, joinBytes_hi_lo, decide_eq_true rfl]

theorem encodeReply_of_accepted {ps : Params} {addr : Byte} (p : List Byte) (h : addrOk ps addr = true) :
    encodeReply ps addr p = bufferResponse .ok (encodedFrame p) := if_pos h

theorem encodeReply_of_refused {ps : Params} {addr : Byte} (p : List Byte) (h : addrOk ps addr = false) :
    encodeReply ps addr p = bufferResponse .invalidInput [] := if_neg (by simp [h])

/-- An encoder operation on an accepted address: the frame, the registers, the buffer, and what is kept (41 R121, R125). -/
theorem exec_encoder_accepted {i : Instr} {s : State} {addr : Byte} {p : List Byte}
    (hi : exec i s = outcome (encodeFrame (p.length + 2) addr p s)) (hlen : bufferLength i = p.length + 2)
    (hok : addrOk s.params addr = true) :
    ∃ t, exec i s = .next t ∧ t.response = some (encodeReply s.params addr p) ∧ t.crc = crc16 p ∧ t.idx = p.length ∧
      t.wlen = p.length + 2 ∧ SameShell s t ∧ BufferBecomes s t (encodedFrame p) := by
  have heq := encodeFrame_eq (p := p) (rest := []) hok (Nat.zero_le 2)
  rw [List.append_nil] at heq
  have hexec := hi.trans (congrArg outcome heq)
  have hold := holds_after_append (Memory.holds_writeAll p s.wb 0)
  exact ⟨_, hexec, congrArg some (encodeReply_of_accepted p hok).symm, rfl, rfl, rfl,
    frame_of_holds hexec hold (hlen.trans (encodedFrame_length p).symm)⟩

/-- An instruction that builds a frame, on a refused address: only the response is written (41 R123). -/
theorem exec_encoder_refused {i : Instr} {s : State} {addr : Byte} {n : Nat} {bytes : List Byte}
    (hi : exec i s = outcome (encodeFrame n addr bytes s)) (h : addrOk s.params addr = false) :
    exec i s = .next (s.answer (bufferResponse .invalidInput [])) := by
  rw [hi, encodeFrame_refused h, outcome_ok]

/-- The answer to a request for an operation that uses no buffer: `kind`, `len` and `data` are ignored (30 R60). -/
theorem answerOf_step_of_asks_unbuffered {s : State} {op : BitVec 3} {kind : BitVec 1} {addr : Byte} {data : List Byte} {i : Instr}
    (hask : Asks s op kind addr data) (hop : ∀ len, decodeOp op kind addr len data = .instr i) (hwf : i.wellFormed = true) :
    answerOf (step s) = some (reply s.params i) := by
  rw [step_eq_exec_accept hask ((decodeRequest_packRequest op kind addr _ data).trans (hop _)),
    answerOf_exec_of_wellFormed _ hwf, State.accept_params]

/-- Settles O21: the template is the payload of R121's closed form. -/
theorem encReadBuildsTheReadFrame : Obligations.EncReadBuildsTheReadFrame := by
  intro s a
  refine ⟨exec_encoder_accepted (i := .encRead a) (p := readTemplate a) rfl rfl, fun hrefused => ?_,
    fun kind data hask => answerOf_step_of_asks_unbuffered (i := .encRead a) hask (fun _ => rfl) rfl⟩
  rw [exec_encoder_refused (i := .encRead a) rfl hrefused, ← encodeReply_of_refused (readTemplate a) hrefused]
  rfl

/-- Settles O22: the template is the payload of R125's closed form. -/
theorem encResetBuildsTheResetFrame : Obligations.EncResetBuildsTheResetFrame := by
  intro s a
  refine ⟨exec_encoder_accepted (i := .encReset a) (p := resetTemplate a) rfl rfl, fun hrefused => ?_,
    fun kind data hask => answerOf_step_of_asks_unbuffered (i := .encReset a) hask (fun _ => rfl) rfl⟩
  rw [exec_encoder_refused (i := .encReset a) rfl hrefused, ← encodeReply_of_refused (resetTemplate a) hrefused]
  rfl

/-- Settles O23: each of the four instructions is the encoder on its own bytes; the default refuses no address. -/
theorem refusedAddressBuildsNothing : Obligations.RefusedAddressBuildsNothing := by
  refine ⟨fun s a l h i hrefused hi => ?_, fun _ => rfl⟩
  obtain rfl | rfl | rfl | rfl := hi <;> exact exec_encoder_refused rfl hrefused

theorem answerOf_encRead {s : State} {a : Byte} (h : addrOk s.params a = true) :
    answerOf (exec (.encRead a) s) = some (bufferResponse .ok (encodedFrame (readTemplate a))) :=
  (answerOf_exec_of_wellFormed s rfl).trans (congrArg some (encodeReply_of_accepted _ h))

theorem answerOf_encReset {s : State} {a : Byte} (h : addrOk s.params a = true) :
    answerOf (exec (.encReset a) s) = some (bufferResponse .ok (encodedFrame (resetTemplate a))) :=
  (answerOf_exec_of_wellFormed s rfl).trans (congrArg some (encodeReply_of_accepted _ h))

theorem answerOf_compute {data : List Byte} (s : State) (h : data.length ≤ Config.fbCap) :
    answerOf (exec (.compute data) s) = some (crcResponse (crc16 data)) :=
  answerOf_exec_of_wellFormed s (decide_eq_true h)

/-- The residue of a checksummed buffer is zero (40 R105). -/
theorem answerOf_compute_checksummed {f : List Byte} (s : State) (hf : checksummed f = true) (h : f.length ≤ Config.fbCap) :
    answerOf (exec (.compute f) s) = some (crcResponse 0) := by
  rw [answerOf_compute s h, (checksummed_iff_residue (length_of_checksummed hf)).mp hf]

theorem answerOf_verify_checksummed {f : List Byte} (s : State) (hf : checksummed f = true) (h : f.length ≤ Config.fbCap) :
    answerOf (exec (.verify f) s) = some (verdictResponse .ok true) := by
  rw [answerOf_exec_of_wellFormed (i := .verify f) s (decide_eq_true h), reply, hf]

/-- A frame that begins with the address tells the addresses apart (41 R126 (c)). -/
theorem some_bufferResponse_inj_of_head {f : Byte → List Byte} (hhead : ∀ a, (f a).head? = some a) (st : Status) {a b : Byte} :
    some (bufferResponse st (f b)) = some (bufferResponse st (f a)) ↔ a = b := by
  refine ⟨fun h => ?_, fun h => by rw [h]⟩
  have hdata : f b = f a := congrArg Response.data (Option.some.inj h)
  exact Option.some.inj (by rw [← hhead a, ← hhead b, hdata])

/-- Settles O24: both frames are their template and its checksum, whatever the state, so they are checksummed; the template begins
with the address. -/
theorem encoderLaws : Obligations.EncoderLaws := by
  intro s s' u a b ha hb ha'
  have hread : checksummed (encodedFrame (readTemplate a)) = true := checksummed_encodedFrame (Nat.succ_pos _)
  have hreset : checksummed (encodedFrame (resetTemplate a)) = true := checksummed_encodedFrame (Nat.succ_pos _)
  have hreadFits : (encodedFrame (readTemplate a)).length ≤ Config.fbCap := (by decide : 8 ≤ 255)
  have hresetFits : (encodedFrame (resetTemplate a)).length ≤ Config.fbCap := (by decide : 4 ≤ 255)
  refine ⟨_, _, _, _, answerOf_encRead ha, answerOf_encReset ha, answerOf_compute u (by decide : 6 ≤ 255), rfl,
    answerOf_compute u (by decide : 2 ≤ 255), rfl, rfl, rfl, hread, hreset,
    answerOf_verify_checksummed u hread hreadFits, answerOf_verify_checksummed u hreset hresetFits,
    answerOf_compute_checksummed u hread hreadFits, answerOf_compute_checksummed u hreset hresetFits,
    rfl, rfl, rfl, rfl, ?_, ?_, answerOf_encRead ha', answerOf_encReset ha'⟩
  · rw [answerOf_encRead hb]
    exact some_bufferResponse_inj_of_head (f := fun a => encodedFrame (readTemplate a)) (fun _ => rfl) .ok
  · rw [answerOf_encReset hb]
    exact some_bufferResponse_inj_of_head (f := fun a => encodedFrame (resetTemplate a)) (fun _ => rfl) .ok

end Sys2Proof.Machine
end

section
/-! The Frame Validator: the verdict, the registers and the buffer of every judgement, and the laws of the verdict (42 R136 to R142). -/

namespace Sys2Proof.Machine

/-- The instruction ends with response `r` and with `c` and `k` in `CRC` and `IDX`; `WLEN` and the buffer hold `data`, and the rest of the
state is kept (10 R24, R26). -/
def AnswersOnSampled (i : Instr) (s : State) (data : List Byte) (r : Response) (c : Word) (k : Nat) : Prop :=
  ∃ t, exec i s = .next t ∧ t.response = some r ∧ t.crc = c ∧ t.idx = k ∧ t.wlen = data.length ∧
    SameShell s t ∧ BufferBecomes s t data

section
variable {i : Instr} {s : State} {data : List Byte} {n : Nat} {judge : State → Except Fault (Status × State)}

/-- An operation that ends right after operand sampling keeps `CRC` and `IDX`. -/
theorem answersOnSampled_of_sampled {r : Response} (hlen : bufferLength i = data.length)
    (h : exec i s = .next ((s.sampled data).answer r)) : AnswersOnSampled i s data r s.crc s.idx :=
  ⟨_, h, rfl, rfl, rfl, rfl, frame_of_holds h (s.sampled_holds data) hlen⟩

/-- An operation that ends with the payload's checksum computed leaves it in `CRC`, and the payload's length in `IDX`. -/
theorem answersOnSampled_of_afterChecksum {r : Response} (hlen : bufferLength i = data.length)
    (h : exec i s = .next (((s.sampled data).afterChecksum data).answer r)) :
    AnswersOnSampled i s data r (crc16 (payload data)) (payload data).length :=
  ⟨_, h, rfl, rfl, rfl, rfl, frame_of_holds h (s.sampled_holds data) hlen⟩

/-- An over-long buffer is answered before its judgement: no checksum is computed (42 R138). -/
theorem validate_overLong (hi : exec i s = outcome (validateOp n judge data s)) (hlen : bufferLength i = data.length)
    (hfit : data.length ≤ Config.fbCap) (hover : n < data.length) :
    AnswersOnSampled i s data (bufferResponse .invalidInput []) s.crc s.idx :=
  answersOnSampled_of_sampled hlen (hi.trans (congrArg outcome (validateOp_overLong s hfit hover)))

/-- The judgement of the buffer by a fixed length `n` leaves a checksum only for a buffer of exactly `n` bytes (42 R137, R138). -/
theorem validate_fixed (hi : exec i s = outcome (validateOp n judge data s)) (hlen : bufferLength i = data.length)
    (hfit : data.length ≤ Config.fbCap) (hn : 2 < n) (hfixed : judge (s.sampled data) = judgeFixed n (s.sampled data)) :
    AnswersOnSampled i s data (validateReply n (fixedVerdict n) data)
      (if data.length = n then crc16 (data.take (n - 2)) else s.crc) (if data.length = n then n - 2 else s.idx) := by
  have hjudge := hfixed.trans (judgeFixed_eq hn (s.sampled_holds data) rfl)
  obtain hshort | hexact | hover := Nat.lt_trichotomy data.length n
  · rw [if_pos hshort] at hjudge
    rw [validateReply, if_neg hshort.not_gt, if_neg hshort.ne, if_neg hshort.ne]
    exact answersOnSampled_of_sampled hlen (hi.trans (congrArg outcome (validateOp_judged hfit hshort.le hjudge)))
  · subst hexact
    rw [if_neg (Nat.lt_irrefl _)] at hjudge
    have hexec := answersOnSampled_of_afterChecksum hlen
      (hi.trans (congrArg outcome (validateOp_judged hfit (Nat.le_refl _) hjudge)))
    rw [validateReply, if_neg (Nat.lt_irrefl _), if_pos rfl, if_pos rfl]
    rwa [payload_length, payload] at hexec
  · rw [validateReply, if_pos hover, if_neg hover.ne', if_neg hover.ne']
    exact validate_overLong hi hlen hfit hover

end

/-- A judge other than `STRICT` answers its verdict and computes no checksum (42 R140; for the open parameter log 7). -/
theorem validateResetAck_of_not_strict {s : State} {data : List Byte} {rule : JudgeRule} (hrule : s.params.resetAckJudge = rule)
    (hne : rule ≠ .strict) (hlen : data.length ≤ Config.resetAckLen) :
    AnswersOnSampled (.validateResetAck data) s data
      (verdictResponse (resetAckVerdict rule data) (accepts (resetAckVerdict rule data))) s.crc s.idx := by
  have hjudge := judgeResetAck_eq (s.sampled_holds data) rfl
  rw [State.sampled_params, hrule, if_neg fun h => hne h.1] at hjudge
  exact answersOnSampled_of_sampled rfl (congrArg outcome (validateOp_judged (hlen.trans (by decide)) hlen hjudge))

/-- `VALIDATE`'s response as R136 writes it: one status, and `valid` exactly when it is `OK`. -/
theorem validateReply_eq_verdictResponse (n : Nat) (verdict : List Byte → Status) (data : List Byte) :
    validateReply n verdict data =
      verdictResponse (if n < data.length then .invalidInput else verdict data)
        (accepts (if n < data.length then .invalidInput else verdict data)) := by
  unfold validateReply
  split <;> rfl

/-- Settles O26: the fixed-length judgement with 25, and a request with any `addr` runs it. -/
theorem validateReadRspJudgesEveryBuffer : Obligations.ValidateReadRspJudgesEveryBuffer := by
  intro s data hfit st
  have hreply : validateReply Config.readRspLen (fixedVerdict Config.readRspLen) data = verdictResponse st (accepts st) :=
    validateReply_eq_verdictResponse _ _ data
  refine ⟨?_, fun addr hask => ?_⟩
  · have hexec := validate_fixed (i := .validateReadRsp data) (s := s) rfl rfl hfit (by decide) rfl
    rwa [hreply] at hexec
  · rw [answerOf_step_of_asks .validateReadRsp hask (fun _ => rfl) hfit rfl, reply, hreply]
    rfl

theorem judgeAsSource_eq_ok_iff (len : Nat) : judgeAsSource len = .ok ↔ 1 ≤ len ∧ len < Config.resetAckLen := by
  unfold judgeAsSource
  split
  next hzero => simp [hzero]
  next hpos => simp [Nat.one_le_iff_ne_zero, hpos]

/-- Settles O27: `AS_SOURCE` is not `STRICT`, and its verdict is one of the length, `OK` exactly for 1 to 4. -/
theorem resetAckAsSource : Obligations.ResetAckAsSource := by
  intro s data hrule hlen st
  have hstatus : judgeAsSource data.length = st := by simp only [judgeAsSource, Nat.lt_succ_iff, st]
  have haccepts : accepts (judgeAsSource data.length) = decide (1 ≤ data.length ∧ data.length ≤ 4) := by
    simp only [accepts, judgeAsSource_eq_ok_iff, Nat.lt_succ_iff]
  have hexec := validateResetAck_of_not_strict hrule (by decide) hlen
  rwa [resetAckVerdict, haccepts, hstatus] at hexec

/-- Settles O28: under `STRICT` the judgement is the fixed-length one with 5, and no buffer here is over-long. -/
theorem resetAckStrict : Obligations.ResetAckStrict := by
  intro s data hrule hlen st
  have hfixed : judgeResetAck (s.sampled data) = judgeFixed Config.resetAckLen (s.sampled data) := by
    rw [judgeResetAck, State.sampled_params, hrule]
  have hexec := validate_fixed (i := .validateResetAck data) rfl rfl (hlen.trans (by decide)) (by decide) hfixed
  rwa [validateReply, if_neg (Nat.not_lt.mpr hlen)] at hexec

/-- Settles O29: the open parameter is not `STRICT`, and its verdict is the parameter's value at the buffer. -/
theorem resetAckOpenParameter : Obligations.ResetAckOpenParameter := by
  intro s data hrule hlen
  obtain ⟨t, ht, hresp, -, -, hrest⟩ := validateResetAck_of_not_strict hrule (by decide) hlen
  exact ⟨t, ht, hresp, hrest⟩

/-- Settles O30: neither kind reaches its judgement. -/
theorem overLongBufferIsInvalidInput : Obligations.OverLongBufferIsInvalidInput := by
  intro s data i hfit hi
  obtain ⟨rfl, hover⟩ | ⟨rfl, hover⟩ := hi
  · exact validate_overLong (i := .validateReadRsp data) rfl rfl hfit hover
  · exact validate_overLong (i := .validateResetAck data) rfl rfl hfit hover

theorem answerOf_validateReadRsp {data : List Byte} (s : State) (hfit : data.length ≤ Config.fbCap) :
    answerOf (exec (.validateReadRsp data) s) = some (validateReply Config.readRspLen (fixedVerdict Config.readRspLen) data) :=
  answerOf_exec_of_wellFormed (i := .validateReadRsp data) s (decide_eq_true hfit)

/-- A buffer of 25 bytes is accepted or a `CHECKSUM_MISMATCH`, as it is checksummed or not (42 R137). -/
theorem answerOf_validateReadRsp_of_length {data : List Byte} (s : State) (h : data.length = Config.readRspLen) :
    answerOf (exec (.validateReadRsp data) s) =
      some (if checksummed data then verdictResponse .ok true else verdictResponse .checksumMismatch false) := by
  rw [answerOf_validateReadRsp s (h.trans_le (by decide)), validateReply_of_length h]

/-- The fixed-length judgement accepts exactly the checksummed buffers of the expected length (42 R142 (a)). -/
theorem validateReply_fixedVerdict_eq_ok_iff (n : Nat) (data : List Byte) :
    (validateReply n (fixedVerdict n) data).status = .ok ↔ data.length = n ∧ checksummed data = true := by
  rw [validateReply_status, fixedVerdict]
  obtain hshort | hexact | hover := Nat.lt_trichotomy data.length n
  · simp [hshort, hshort.ne, hshort.not_gt]
  · simp [hexact]
  · simp [hover, hover.ne']

/-- With the length known: the last two bytes are the checksum of those before, low byte first (30 R65). -/
theorem checksummed_iff_of_length {n : Nat} {f : List Byte} (h : f.length = n) (hn : 2 < n) :
    checksummed f = true ↔ f.drop (n - 2) = checksumBytes (f.take (n - 2)) := by
  subst h
  rw [checksummed, decide_eq_true hn, Bool.true_and, decide_eq_true_iff, payload]

/-- Settles O31: the answer is a function of the buffer, `OK` exactly when it has 25 bytes and is checksummed; a flipped buffer keeps its
length and is not checksummed, and what `APPEND` returns keeps its length and is. -/
theorem validateReadRspLaws : Obligations.ValidateReadRspLaws := by
  intro s s' f hfit
  refine ⟨?_, (answerOf_validateReadRsp s hfit).trans (answerOf_validateReadRsp s' hfit).symm,
    fun k j hlen hf hk hj => ?_, fun hlen => ?_⟩
  · simp only [answerOf_validateReadRsp s hfit, Option.some.injEq, exists_eq_left', validateReply_fixedVerdict_eq_ok_iff]
    exact and_congr_right fun hlen => checksummed_iff_of_length hlen (by decide)
  · rw [answerOf_validateReadRsp_of_length s ((flipBit_length f k j).trans hlen), checksummed_flipBit hf (hlen ▸ hk) hj]
    rfl
  · have h2 : 2 < f.length := by omega
    refine ⟨_, answerOf_append s h2 hfit, ?_⟩
    rw [bufferResponse, answerOf_validateReadRsp_of_length s' ((withChecksum_length h2.le).trans hlen),
      checksummed_withChecksum h2]
    rfl

/-- Settles O32: the 23 bytes and their checksum are a checksummed buffer of 25. -/
theorem validatorExaminesOnlyLengthAndChecksum : Obligations.ValidatorExaminesOnlyLengthAndChecksum := by
  intro s p hp
  have hlen : (encodedFrame p).length = Config.readRspLen := by rw [encodedFrame_length, hp]
  obtain ⟨t, ht, hresp, -⟩ := exec_answers (.validateReadRsp (encodedFrame p)) s (hlen.trans_le (by decide))
  rw [reply, validateReply_of_length hlen, checksummed_encodedFrame (by omega)] at hresp
  exact ⟨t, ht, hresp⟩

/-- Settles O33: 5 bytes are too few for the one kind, 25 too many for the other. -/
theorem wrongKindIsJudgedByLength : Obligations.WrongKindIsJudgedByLength := by
  intro s data
  refine ⟨fun hlen => ?_, fun hlen => ?_⟩
  · have hfits : data.length ≤ Config.readRspLen := hlen.trans_le (by decide)
    have hshort : fixedVerdict Config.readRspLen data = .truncatedFrame := if_pos (hlen.trans_lt (by decide))
    rw [answerOf_validateReadRsp s (hfits.trans (by decide)), validateReply, if_neg hfits.not_gt, hshort]
    rfl
  · have hover : Config.resetAckLen < data.length := hlen.symm ▸ (by decide : 5 < 25)
    obtain ⟨t, ht, hresp, -⟩ := validate_overLong (i := .validateResetAck data) (s := s) rfl rfl (hlen.trans_le (by decide)) hover
    rw [ht]
    exact hresp

end Sys2Proof.Machine
end

section
/-! The Transport Reader: it reads what the attempts before the first empty one yield, up to its bound (45 R151). -/

namespace Sys2Proof.Machine

/-- By the attempts: an empty one ends the reading, one that fills the bound is cut at it, any other leaves the rest of the bound to
the attempts after it. -/
theorem readUpTo_eq_take (n : Nat) (attempts : List (List Byte)) :
    readUpTo n attempts = (attempts.takeWhile (fun chunk => !chunk.isEmpty)).flatten.take n := by
  induction attempts generalizing n with
  | nil => rw [readUpTo, List.takeWhile_nil, List.flatten_nil, List.take_nil]
  | cons chunk rest ih =>
    rw [readUpTo]
    split
    next hempty => rw [List.takeWhile_cons_of_neg (by simpa using hempty), List.flatten_nil, List.take_nil]
    next hsome =>
      rw [List.takeWhile_cons_of_pos (by simpa using hsome), List.flatten_cons]
      split
      next hfull => rw [List.take_append_of_le_length hfull]
      next hroom => rw [ih, List.take_append, List.take_of_length_le (Nat.le_of_not_le hroom)]

theorem readUpTo_length_le (n : Nat) (attempts : List (List Byte)) : (readUpTo n attempts).length ≤ n := by
  rw [readUpTo_eq_take]
  exact List.length_take_le ..

theorem readUpTo_prefix (n : Nat) (attempts : List (List Byte)) : readUpTo n attempts <+: attempts.flatten := by
  rw [readUpTo_eq_take]
  exact (List.take_prefix ..).trans (List.takeWhile_prefix _).flatten

/-- Settles O48: the reader's value, by induction on the attempts, and what the value says of its length and order. -/
theorem transportReaderGivesAPrefix : Obligations.TransportReaderGivesAPrefix :=
  fun n attempts => ⟨readUpTo_eq_take n attempts, readUpTo_length_le n attempts, readUpTo_prefix n attempts⟩

end Sys2Proof.Machine
end

section
/-! The Register Decoder: its domain, and its table as numbers (45 R160, R161). -/

namespace Sys2Proof.Machine

theorem acceptedReadRsp_iff (b : List Byte) : acceptedReadRsp b = true ↔ b.length = Config.readRspLen ∧ checksummed b = true := by
  rw [acceptedReadRsp, Bool.and_eq_true, decide_eq_true_iff]

theorem decodeMeasurement_eq_some_iff (b : List Byte) :
    (∃ m, decodeMeasurement b = some m) ↔ b.length = Config.readRspLen ∧ checksummed b = true := by
  rw [← acceptedReadRsp_iff, decodeMeasurement]
  split
  next haccepted => simp [haccepted]
  next hrejected => simp [hrejected]

/-- `VALIDATE READ_RSP` answers `OK` exactly on the checksummed buffers of 25 bytes; one that exceeds `FB_CAP` has no answer
(42 R142 (a), log 14). -/
theorem answerOf_validateReadRsp_ok_iff (s : State) (b : List Byte) :
    (∃ r, answerOf (exec (.validateReadRsp b) s) = some r ∧ r.status = .ok) ↔
      b.length = Config.readRspLen ∧ checksummed b = true := by
  by_cases hfit : b.length ≤ Config.fbCap
  · simp only [answerOf_validateReadRsp s hfit, Option.some.injEq, exists_eq_left', validateReply_fixedVerdict_eq_ok_iff]
  · have hlen : b.length ≠ Config.readRspLen := fun h => hfit (h.trans_le (by decide))
    rw [exec_overCapacity (.validateReadRsp b) s hfit]
    simp [answerOf, hlen]

/-- Settles O54: both sides say that the buffer has 25 bytes and is checksummed. -/
theorem decoderIsDefinedOnAcceptedBuffers : Obligations.DecoderIsDefinedOnAcceptedBuffers :=
  fun s b => (decodeMeasurement_eq_some_iff b).trans (answerOf_validateReadRsp_ok_iff s b).symm

theorem word_toNat_eq_hi_lo (w : Word) : w.toNat = (hi w).toNat * 256 + (lo w).toNat := by
  have hw : w.toNat < 65536 := w.isLt
  simp only [hi, lo, BitVec.extractLsb'_toNat, Nat.shiftRight_eq_div_pow]
  omega

theorem joinBytes_toNat (h l : Byte) : (joinBytes h l).toNat = h.toNat * 256 + l.toNat := by
  rw [word_toNat_eq_hi_lo, hi_joinBytes, lo_joinBytes]

theorem wordAt_toNat (b : List Byte) (k : Nat) : (wordAt b k).toNat = (b.getD k 0).toNat * 256 + (b.getD (k + 1) 0).toNat :=
  joinBytes_toNat ..

/-- The word at the lower offset is the low one (45 R160, 20 R42 (c)). -/
theorem swappedAt_toNat (b : List Byte) (k : Nat) :
    (swappedAt b k).toNat = (wordAt b (k + 2)).toNat * 65536 + (wordAt b k).toNat := by
  rw [swappedAt, BitVec.toNat_append, ← Nat.shiftLeft_add_eq_or_of_lt (wordAt b k).isLt, Nat.shiftLeft_eq]

/-- Settles O55: the table's bytes, each pair and each word-swapped quadruple read as a number. -/
theorem decoderReadsTheRegisterTable : Obligations.DecoderReadsTheRegisterTable := by
  intro b hlen hsum n
  refine ⟨_, if_pos ((acceptedReadRsp_iff b).mpr ⟨hlen, hsum⟩), ?_⟩
  simp only [swappedAt_toNat, wordAt_toNat, n, and_self]

end Sys2Proof.Machine
end

section
/-! The driver: two operations asked in a row, the second on what was received after the first's frame (45 R165, R166, R171). -/

namespace Sys2Proof.Machine

/-- `request` on an accepted address: the read frame is transmitted, and the received bytes are judged and decoded (45 R165). -/
theorem driverRequest_of_accepted {s : State} {a : Byte} (bus : List Byte → List (List Byte)) {buf : List Byte}
    (hidle : s.pending = none) (hok : addrOk s.params a = true)
    (hbuf : readUpTo Config.readRspLen (bus (encodedFrame (readTemplate a))) = buf) :
    ∃ t, driverRequest (some a) bus s =
      if fixedVerdict Config.readRspLen buf = .ok then (decodeMeasurement buf).map (fun m => (.ok m, t))
      else some (.error (fixedVerdict Config.readRspLen buf), t) := by
  have hlen : buf.length ≤ Config.readRspLen := hbuf ▸ readUpTo_length_le ..
  obtain ⟨u, hencode, huidle, -⟩ := ask_requestFor (i := .encRead a) hidle rfl
  obtain ⟨t, hjudge, -, -⟩ :=
    ask_requestFor (i := .validateReadRsp buf) huidle (decide_eq_true (hlen.trans (by decide)))
  rw [reply, encodeReply_of_accepted _ hok] at hencode
  rw [reply, validateReply, if_neg hlen.not_gt] at hjudge
  refine ⟨t, ?_⟩
  simp only [driverRequest, Option.getD_some, hencode, bufferResponse, if_true, hbuf, hjudge, verdictResponse]

/-- `reset` on an accepted address: the reset frame is transmitted, and the received bytes are judged (45 R166). -/
theorem driverReset_of_accepted {s : State} {a : Byte} (bus : List Byte → List (List Byte)) {buf : List Byte}
    (hidle : s.pending = none) (hok : addrOk s.params a = true)
    (hbuf : readUpTo Config.resetAckLen (bus (encodedFrame (resetTemplate a))) = buf) :
    ∃ r t, answerOf (exec (.validateResetAck buf) s) = some r ∧
      driverReset (some a) bus s = some (if r.status = .ok then .ok () else .error r.status, t) := by
  have hlen : buf.length ≤ Config.resetAckLen := hbuf ▸ readUpTo_length_le ..
  have hwf : (Instr.validateResetAck buf).wellFormed = true := decide_eq_true (hlen.trans (by decide))
  obtain ⟨u, hencode, huidle, huparams⟩ := ask_requestFor (i := .encReset a) hidle rfl
  obtain ⟨t, hjudge, -, -⟩ := ask_requestFor huidle hwf
  rw [reply, encodeReply_of_accepted _ hok] at hencode
  rw [huparams] at hjudge
  refine ⟨_, t, answerOf_exec_of_wellFormed s hwf, ?_⟩
  simp only [driverReset, Option.getD_some, hencode, bufferResponse, if_true, hbuf, hjudge]
  split <;> rfl

theorem fixedVerdict_of_length {n : Nat} {f : List Byte} (h : f.length = n) :
    fixedVerdict n f = if checksummed f then .ok else .checksumMismatch := if_neg h.not_lt

/-- Settles O49: too few bytes are judged truncated; of 25 bytes the checksum decides, and the decoder is defined where it is right. -/
theorem driverRequestOutcomes : Obligations.DriverRequestOutcomes := by
  intro s a bus hidle hok c buf
  obtain ⟨t, ht⟩ := driverRequest_of_accepted bus (buf := buf) hidle hok rfl
  refine ⟨t, fun hshort => ?_, fun hlen hwrong => ?_, fun hlen hright => ?_⟩
  · have hverdict : fixedVerdict Config.readRspLen buf = .truncatedFrame := if_pos hshort
    rw [ht, hverdict, if_neg (by decide)]
  · have hverdict : fixedVerdict Config.readRspLen buf = .checksumMismatch := by
      rw [fixedVerdict_of_length hlen, hwrong, if_neg Bool.false_ne_true]
    rw [ht, hverdict, if_neg (by decide)]
  · have hverdict : fixedVerdict Config.readRspLen buf = .ok := by rw [fixedVerdict_of_length hlen, if_pos hright]
    obtain ⟨m, hm⟩ := (decodeMeasurement_eq_some_iff buf).mpr ⟨hlen, hright⟩
    refine ⟨m, hm, ?_⟩
    rw [ht, if_pos hverdict, hm, Option.map_some]

/-- Settles O50: the template is the payload of R125's closed form, and the judge is the one the parameters name. -/
theorem driverResetOutcome : Obligations.DriverResetOutcome :=
  fun _ _ bus hidle hok => driverReset_of_accepted bus hidle hok rfl

end Sys2Proof.Machine
end


section
/-! A failure's response: only the status and the buffer the failure's rule names (60 R182, R184). -/

namespace Sys2Proof.Machine

theorem encodeReply_of_failure {ps : Params} {addr : Byte} {p : List Byte} (h : (encodeReply ps addr p).status ≠ .ok) :
    encodeReply ps addr p = bufferResponse (encodeReply ps addr p).status [] := by
  cases hok : addrOk ps addr with
  | true => exact absurd (by rw [encodeReply_status, if_pos hok]) h
  | false =>
    rw [encodeReply_of_refused p hok]
    rfl

theorem verdictResponse_of_failure {st : Status} (h : st ≠ .ok) : verdictResponse st (accepts st) = bufferResponse st [] := by
  rw [accepts, decide_eq_false h]
  rfl

theorem validateReply_of_failure {n : Nat} {verdict : List Byte → Status} {data : List Byte}
    (h : (validateReply n verdict data).status ≠ .ok) :
    validateReply n verdict data = bufferResponse (validateReply n verdict data).status [] := by
  rw [validateReply_status] at h ⊢
  unfold validateReply
  split
  next => rfl
  next hfits => exact verdictResponse_of_failure (by rwa [if_neg hfits] at h)

/-- `APPEND` fails only on a short buffer, which comes back unchanged (40 R99). -/
theorem appendReply_of_failure {data : List Byte} (h : (appendReply data).status ≠ .ok) :
    appendReply data = bufferResponse .invalidInput data := by
  rw [appendReply_status] at h
  exact if_pos (by_contra fun hlong => h (if_neg hlong))

/-- A failing reply carries its status alone, except that `APPEND`'s also carries its input (60 R184). -/
theorem reply_of_failure {ps : Params} {i : Instr} (h : (reply ps i).status ≠ .ok) :
    reply ps i = bufferResponse (reply ps i).status [] ∨
      ∃ data, i = .append data ∧ reply ps i = bufferResponse .invalidInput data := by
  cases i with
  | compute | verify => exact absurd rfl h
  | append data => exact .inr ⟨data, rfl, appendReply_of_failure h⟩
  | encRead | encReset | readCommandFrame | resetCommandFrame => exact .inl (encodeReply_of_failure h)
  | validateReadRsp | validateResetAck | readResponseFrame | resetAckFrame => exact .inl (validateReply_of_failure h)

/-- Settles O45: an answer is the instruction's reply, and a failing reply is a bare status or `APPEND`'s input. -/
theorem failureCarriesNoResult : Obligations.FailureCarriesNoResult := by
  intro i s r h hfail
  obtain rfl := eq_reply_of_answerOf h
  obtain hbare | ⟨data, hi, hinput⟩ := reply_of_failure hfail
  · rw [hbare]
    exact ⟨rfl, rfl, .inl rfl⟩
  · rw [hinput]
    exact ⟨rfl, rfl, .inr ⟨data, hi, rfl⟩⟩

end Sys2Proof.Machine
end

section
/-! The idle block, its reset, and what the host may present (00 R12, 10 R31, 70 R200, R201, R207). -/

namespace Sys2Proof.Machine

/-- Settles O36: the branch of the step with no request pending. -/
theorem idleBlockWaits : Obligations.IdleBlockWaits := by
  intro s hidle
  simp only [step, hidle]

/-- Settles O37: both resets leave the idle block, which has the invariant whatever its free registers hold. -/
theorem resetLeavesTheBlockIdle : Obligations.ResetLeavesTheBlockIdle :=
  ⟨rfl, rfl, rfl, State.idle_inv Config.defaultParams 0, fun s => ⟨rfl, rfl, rfl, State.idle_inv s.params s.draws⟩⟩

theorem State.present_of_pending {s : State} {q : Presented} (h : s.pending = some q) (p : Presented) : s.present p = none := by
  simp only [State.present, h]

theorem ask_of_pending {s : State} {q : Presented} (h : s.pending = some q) (p : Presented) : ask p s = none := by
  simp only [ask, State.present_of_pending h]

/-- Settles O47: a full request slot admits neither presenting nor asking, and an empty one takes the request. -/
theorem overlappingRequestHasNoMove : Obligations.OverlappingRequestHasNoMove :=
  fun _ p _ => ⟨fun hbusy => ⟨State.present_of_pending hbusy p, ask_of_pending hbusy p⟩, fun hidle => State.present_of_idle hidle p⟩

end Sys2Proof.Machine
end
